-- ==== Sys2Proof/Word.lean ====
section
/-! DEFINITION. The fixed widths of PRS-CORE (00_scope.md R7, R8; 30_encoding.md R51): a name for each, and nothing else.
Everything computed from them stands in Decode.lean and under Machine/. -/

namespace Sys2Proof

/-- An 8-bit field: `OP`, `IDX`, `RND`, `RSVD`, `CODE`, the ROUNDS register (R53, R61, R23), and a byte of the hash message. -/
abbrev Byte := BitVec 8

/-- `W = 64` (R7, D2): `n`, the seed, indices, cursor registers, response values, digests. -/
abbrev Word := BitVec 64

/-- A half block in its 32-bit register (R8, R37): `h` is at most 32. -/
abbrev Half := BitVec 32

/-- A command record, `cmd_data[159:0]` (R53). -/
abbrev Record := BitVec 160

/-- A hash message on its bus, `hash_req_data[191:0]`, byte `k` on bits `[8k+7:8k]` (R62). -/
abbrev Message := BitVec 192

end Sys2Proof
end

