-- ==== Sys2Proof/Config.lean ====
section
/-! DEFINITION. What an implementation or its platform fixes (00_scope.md R7).
`WALK_CAP` and `NCUR` are held in State (10_state.md R16 gives them READ_STATE indices); here stand the values the
spec's examples give them, the fixed constant `N_MAX`, the hash function, and what a substituted message encoding is. -/

namespace Sys2Proof

/-- The hash function `H` of the external hash unit (R7 OPEN, 41_round_function.md R80, D9): any total function from 24-byte messages to
64-bit digests, fixed for the whole run. It has no body: nothing can be proved of it but that it is a function. DESIGN CHOICE: the
parameter's form (log 1). -/
opaque Config.hash : Message → Word

/-- What a machine with a substituted message encoding makes of the default encoding's message (R7 ENC OPEN, 41_round_function.md R79, 92 D8,
93 I2): any permutation of the 24-byte strings, fixed for the whole run. It has no body, so nothing can be proved of it but that it is one. Followed by
a permutation the default encoding is any injective encoding at all (the obligation EncodingParameterIsAnyInjectiveEncoding). DESIGN CHOICE: the parameter's form
(log 11). -/
opaque Config.encSubstitute : Equiv.Perm Message

/-- `N_MAX = 2^63`, the largest `n` CONSTRUCT accepts (R7, D3), read at READ_STATE index 0x0A (R32). -/
def Config.nMax : Word := 0x8000000000000000

/-- The default of the OPEN parameter `WALK_CAP` (R7, D6). DESIGN CHOICE: State.reset holds it (log 2). -/
def Config.walkCapDefault : Word := 512

/-- The default of the OPEN parameter `NCUR` (R7, D14). DESIGN CHOICE: State.reset holds it (log 2). -/
def Config.ncurDefault : Nat := 4

/-- The largest `NCUR` a machine may have (R7): the highest state index is then `0x11 + 2 * 119 = 0xFF` (R111). -/
def Config.ncurMax : Nat := 120

end Sys2Proof
end

