-- ==== Sys2Proof/Syntax.lean ====
section
/-! DEFINITION. The syntax of PRS-CORE's commands: one constructor per row of spec/opcode_table.json (30_encoding.md R55), with
exactly the operands the row uses; a field the command ignores is not part of it. -/

namespace Sys2Proof

/-- The registers READ_STATE can name (46_state_access.md R111). -/
inductive StateReg where
  /-- index 0x00 -/
  | n
  /-- index 0x01 -/
  | seed
  /-- index 0x02 -/
  | rounds
  /-- index 0x03 -/
  | b
  /-- index 0x04 -/
  | h
  /-- index 0x05 -/
  | halfMask
  /-- index 0x06 -/
  | status
  /-- index 0x07 -/
  | walkCount
  /-- index 0x08 -/
  | walkCap
  /-- index 0x09 -/
  | ncur
  /-- index 0x0A -/
  | nMax
  /-- index 0x10 + 2c: `CUR_POS[c]` -/
  | curPos (c : Byte)
  /-- index 0x11 + 2c: `CUR_END[c]` -/
  | curEnd (c : Byte)
  deriving DecidableEq, Repr

/-- A command (R55). -/
inductive Instr where
  /-- OP 0x01: `CONSTRUCT n, seed, rounds` (R74). -/
  | construct (n seed : Word) (rounds : Byte)
  /-- OP 0x02: `GET i` (R103). -/
  | get (i : Word)
  /-- OP 0x03: `INVERT j` (R104). -/
  | invert (j : Word)
  /-- OP 0x04: `ITER c` (R106). -/
  | iter (c : Byte)
  /-- OP 0x05: `RANGE c, lo, hi` (R107). -/
  | range (c : Byte) (lo hi : Word)
  /-- OP 0x06: `NEXT c` (R108). -/
  | next (c : Byte)
  /-- OP 0x07: `READ_STATE reg` (R112). -/
  | readState (reg : StateReg)
  deriving DecidableEq, Repr

end Sys2Proof
end

