-- ==== Sys2Proof/WellFormed.lean ====
section
/-! DEFINITION. Which terms of Instr are commands of a machine with `ncur` cursors: the side conditions of 30_encoding.md R56. -/

namespace Sys2Proof

/-- A register READ_STATE can reach (46_state_access.md R111): a cursor's register needs `c < NCUR`, and an index that fits the 8-bit `IDX`. -/
def StateReg.wf (ncur : Nat) : StateReg → Bool
  | .curPos c => decide (c.toNat < ncur) && decide (c.toNat < Config.ncurMax)
  | .curEnd c => decide (c.toNat < ncur) && decide (c.toNat < Config.ncurMax)
  | .n | .seed | .rounds | .b | .h | .halfMask | .status | .walkCount | .walkCap | .ncur | .nMax => true

/-- A command with its side condition met (R56): `IDX < NCUR` for ITER, RANGE and NEXT, a mapped index for READ_STATE, none otherwise
(every operand word and every round count of CONSTRUCT decodes, R57). -/
def Instr.wf (ncur : Nat) : Instr → Bool
  | .construct _ _ _ => true
  | .get _ => true
  | .invert _ => true
  | .iter c => decide (c.toNat < ncur)
  | .range c _ _ => decide (c.toNat < ncur)
  | .next c => decide (c.toNat < ncur)
  | .readState reg => reg.wf ncur

end Sys2Proof
end

