-- ==== Sys2Proof/Decode.lean ====
section
/-! DEFINITION. The command record (30_encoding.md R53-R60, R63) and the state index map (46_state_access.md R111): its fields, the strict and
total decoder, the encoder, and the host's entry `decodeTableWord`. -/

namespace Sys2Proof

/-- `OP = cmd_data[7:0]` (R53). -/
def fieldOp (w : Record) : Byte := w.extractLsb' 0 8

/-- `IDX = cmd_data[15:8]` (R53). -/
def fieldIdx (w : Record) : Byte := w.extractLsb' 8 8

/-- `RND = cmd_data[23:16]` (R53). -/
def fieldRnd (w : Record) : Byte := w.extractLsb' 16 8

/-- `RSVD = cmd_data[31:24]` (R53). -/
def fieldRsvd (w : Record) : Byte := w.extractLsb' 24 8

/-- `A = cmd_data[95:32]` (R53, R54). -/
def fieldA (w : Record) : Word := w.extractLsb' 32 64

/-- `Bop = cmd_data[159:96]` (R53, R54). -/
def fieldBop (w : Record) : Word := w.extractLsb' 96 64

/-- Why a record selects no command (R57). Every one of them completes with ILLEGAL_COMMAND (60_exceptions.md R114); the reason is the
model's name for it and reaches no port. -/
inductive DecodeError where
  /-- `OP` is 0x00 or 0x08 … 0xFF. -/
  | reservedOpcode
  /-- `RSVD ≠ 0`. -/
  | reservedField
  /-- `RND ≠ 0` on a command other than CONSTRUCT. -/
  | roundField
  /-- `IDX ≠ 0` on CONSTRUCT, GET or INVERT. -/
  | indexField
  /-- `IDX ≥ NCUR` on ITER, RANGE or NEXT. -/
  | slotOutOfRange
  /-- `IDX` is no mapped state index on READ_STATE. -/
  | unmappedIndex
  deriving DecidableEq, Repr

/-- What decoding a record gives (R59): a command with its operands, or an illegal command. -/
inductive Decoded where
  | command (i : Instr)
  | illegal (why : DecodeError)
  deriving DecidableEq, Repr

/-- The register at state index `s` in a machine of `ncur` cursors; `none` for an unmapped index (R111). -/
def stateRegAt (ncur : Nat) (s : Byte) : Option StateReg :=
  match s.toNat with
  | 0x00 => some .n
  | 0x01 => some .seed
  | 0x02 => some .rounds
  | 0x03 => some .b
  | 0x04 => some .h
  | 0x05 => some .halfMask
  | 0x06 => some .status
  | 0x07 => some .walkCount
  | 0x08 => some .walkCap
  | 0x09 => some .ncur
  | 0x0A => some .nMax
  | k =>
    if 0x10 ≤ k ∧ (k - 0x10) / 2 < ncur then
      if (k - 0x10) % 2 = 0 then some (.curPos (BitVec.ofNat 8 ((k - 0x10) / 2)))
      else some (.curEnd (BitVec.ofNat 8 ((k - 0x10) / 2)))
    else none

/-- The state index of a register (R111). -/
def stateIndexOf : StateReg → Byte
  | .n => 0x00
  | .seed => 0x01
  | .rounds => 0x02
  | .b => 0x03
  | .h => 0x04
  | .halfMask => 0x05
  | .status => 0x06
  | .walkCount => 0x07
  | .walkCap => 0x08
  | .ncur => 0x09
  | .nMax => 0x0A
  | .curPos c => 0x10 + 2 * c
  | .curEnd c => 0x11 + 2 * c

/-- The check of GET and INVERT (R56, R57): `IDX` and `RND` must be 0. -/
def decodeQuery (w : Record) (i : Instr) : Decoded :=
  if fieldRnd w ≠ 0 then .illegal .roundField
  else if fieldIdx w ≠ 0 then .illegal .indexField
  else .command i

/-- The check of ITER, RANGE and NEXT (R56, R57): `RND` must be 0 and `IDX` a slot below `NCUR`. -/
def decodeSlot (ncur : Nat) (w : Record) (i : Instr) : Decoded :=
  if fieldRnd w ≠ 0 then .illegal .roundField
  else if (fieldIdx w).toNat < ncur then .command i
  else .illegal .slotOutOfRange

/-- The decoder, strict and total (R55-R59), of a machine with `ncur` cursors. It never looks at an operand word to reject a record
(R57), and `RND = 0` on CONSTRUCT decodes. -/
def decode (ncur : Nat) (w : Record) : Decoded :=
  if fieldRsvd w ≠ 0 then .illegal .reservedField
  else match (fieldOp w).toNat with
    | 0x01 => if fieldIdx w ≠ 0 then .illegal .indexField else .command (.construct (fieldA w) (fieldBop w) (fieldRnd w))
    | 0x02 => decodeQuery w (.get (fieldA w))
    | 0x03 => decodeQuery w (.invert (fieldA w))
    | 0x04 => decodeSlot ncur w (.iter (fieldIdx w))
    | 0x05 => decodeSlot ncur w (.range (fieldIdx w) (fieldA w) (fieldBop w))
    | 0x06 => decodeSlot ncur w (.next (fieldIdx w))
    | 0x07 =>
      if fieldRnd w ≠ 0 then .illegal .roundField
      else match stateRegAt ncur (fieldIdx w) with
        | some reg => .command (.readState reg)
        | none => .illegal .unmappedIndex
    | _ => .illegal .reservedOpcode

/-- A record from its fields, `RSVD = 0` (R53). -/
def assemble (op idx rnd : Byte) (a bop : Word) : Record := bop ++ a ++ (0 : Byte) ++ rnd ++ idx ++ op

/-- The record of a command (R55, R63); a field the command ignores is 0. -/
def encode : Instr → Record
  | .construct n seed rounds => assemble 0x01 0 rounds n seed
  | .get i => assemble 0x02 0 0 i 0
  | .invert j => assemble 0x03 0 0 j 0
  | .iter c => assemble 0x04 c 0 0 0
  | .range c lo hi => assemble 0x05 c 0 lo hi
  | .next c => assemble 0x06 c 0 0 0
  | .readState reg => assemble 0x07 (stateIndexOf reg) 0 0 0

/-- The record whose low `nbits` bits are `w`, bit 0 the least significant (R10, R39), and whose other bits are 0. -/
def tableRecord (nbits w : Nat) : Record := BitVec.ofNat 160 (w % 2 ^ nbits)

/-- The command the decoder reads from an opcode-table word, in a machine of the default `NCUR`. -/
def decodeTableWord (nbits w : Nat) : Option Instr :=
  match decode Config.ncurDefault (tableRecord nbits w) with
  | .command i => some i
  | .illegal _ => none

end Sys2Proof
end

