-- ==== Sys2Proof/Machine/State.lean ====
section
/-! DEFINITION. The state of PRS-CORE as plain data (10_state.md R16, R37), with the pins' input samples and the hash unit's kind beside it,
and the state right after reset (70_reset_and_hazards.md R132). Operations on it stand in the other files of Machine/. -/

namespace Sys2Proof.Machine

/-- Response codes (60_exceptions.md R113). No other code exists, so none is ever produced (93 I8). -/
inductive Code where
  /-- 0x00 -/
  | ok
  /-- 0x01: GET, INVERT (R115). -/
  | outOfRange
  /-- 0x02: RANGE (R116). -/
  | invalidRange
  /-- 0x03: CONSTRUCT (R117). -/
  | invalidDomain
  /-- 0x04: a walk of GET, INVERT or NEXT that reached the cap (R118). -/
  | internalInvariantViolation
  /-- 0x05: NEXT on an exhausted cursor (R119). -/
  | endOfSequence
  /-- 0x06: a record that selects no command (R114). -/
  | illegalCommand
  deriving DecidableEq, Repr

/-- A response record's two fields (30_encoding.md R61); `rspBits` of Machine/Ports.lean lays them out on the 72 wires. -/
structure Response where
  code : Code
  value : Word
  deriving DecidableEq, Repr

/-- The command phase (R37, 70 R136). -/
inductive CmdPhase where
  /-- ready for a command -/
  | idle
  /-- a command is executing -/
  | exec
  /-- the response is offered and not yet taken -/
  | resp
  deriving DecidableEq, Repr

/-- The hash transaction phase (R37, 41_round_function.md R82). -/
inductive HashPhase where
  /-- no transaction -/
  | hidle
  /-- request offered, not yet accepted -/
  | hreq
  /-- request accepted, digest not yet returned -/
  | hwait
  deriving DecidableEq, Repr

/-- Which hash unit stands behind the hash port. It is the platform's, not PRS-CORE's state (R18); the model holds it as data (log 5). -/
inductive HashUnit where
  /-- A unit that keeps 41 R80 and 70 R138, R139: every request is answered with `Config.hash` of its message. The time it takes is not
  modelled (70 R142): a command executes in one step. -/
  | contract
  /-- Any unit at all, seen edge by edge on the pins hash_req_ready, hash_rsp_valid and hash_rsp_data (41 R82-R84; 93 I3, I4, I5). -/
  | pins
  deriving DecidableEq, Repr

/-- Which message encoding `ENC` the machine is built with (00 R7 OPEN, 41 R79, 93 I2): a parameter, as WALK_CAP and NCUR are; `Encoding.enc` of
Machine/Hash.lean gives each its function (log 11). -/
inductive Encoding where
  /-- The default, `LE64(seed) ‖ LE64(r) ‖ LE64(x)`. -/
  | littleEndian
  /-- Any other injective one, such as that of a known software build. -/
  | substitute
  deriving DecidableEq, Repr

/-- The six registers that together are the Permutation (R17, R21-R26). -/
structure Perm where
  n : Word
  seed : Word
  rounds : Byte
  b : BitVec 7
  h : BitVec 6
  halfMask : BitVec 32
  deriving DecidableEq, Repr

/-- A cursor: `CUR_POS` and `CUR_END` (R34). -/
structure Cursor where
  pos : Word
  stop : Word
  deriving DecidableEq, Repr

/-- The two half-block registers `Lh` and `Rh` (R37, 42_feistel_engine.md R86). -/
structure Lanes where
  lh : Half
  rh : Half
  deriving DecidableEq, Repr

/-- The walk datapath (R37): the walk value, the walk-step counter, the round counter, the half-block registers. -/
structure Datapath where
  x : Word
  k : Word
  r : Byte
  lanes : Lanes
  deriving DecidableEq, Repr

/-- The input pins as PRS-CORE samples them at one rising edge of `clk` (30 R51). -/
structure PortIn where
  rst : Bool
  cmdValid : Bool
  cmdData : Record
  rspReady : Bool
  hashReqReady : Bool
  hashRspValid : Bool
  hashRspData : Word
  deriving DecidableEq, Repr

/-- The state. `NCUR` is the length of `cursors`: it has no second home. -/
structure State where
  /-- N, SEED, ROUNDS, B, H, HALF_MASK (R17). -/
  perm : Perm
  /-- STATUS, bit 0 = IIV (R29). -/
  status : BitVec 64
  /-- WALK_COUNT (R31). -/
  walkCount : Word
  /-- The constant WALK_CAP (R32). -/
  walkCap : Word
  /-- The parameter ENC (00 R7), which no register holds (log 11). -/
  encoding : Encoding
  /-- The cursor file, slot 0 first (R34). -/
  cursors : List Cursor
  /-- The command phase (R37). -/
  cmdPhase : CmdPhase
  /-- The latched command record (R37). -/
  cmdData : Record
  /-- The model's own: the executing command's walk is under way (log 4). -/
  walking : Bool
  /-- The walk datapath (R37). -/
  dp : Datapath
  /-- The hash transaction phase (R37). -/
  hashPhase : HashPhase
  /-- The request message (R37). -/
  hashMsg : Message
  /-- The pending response (R37). -/
  response : Response
  /-- The model's own: the platform's hash unit (log 5). -/
  hashUnit : HashUnit
  /-- The model's own: the messages transferred on the hash port so far, oldest first (log 6). -/
  hashSent : List Message
  /-- The model's own: the input samples of the edges to come, next one first (log 7). -/
  io : List PortIn
  deriving DecidableEq, Repr

/-- Why the machine would stop. PRS-CORE has no trap and no stop: every error is a response code (60 R113, R121), and a silent hash unit is a
wait that `rst` ends (41 R84), so there is no constructor. -/
inductive Fault where
  deriving DecidableEq, Repr

/-- Why the model would refuse an instruction. -/
inductive Refusal where
  /-- An arm of exec whose instruction has no meaning yet. No arm raises it: every instruction has its meaning. Safe. -/
  | notModelled (mnemonic : String)
  deriving DecidableEq, Repr

/-- The state right after reset of a machine with the parameters `WALK_CAP = cap`, `NCUR = ncur` and `ENC = en` (70 R132; 10 R28, R29, R31, R34).
DESIGN CHOICE: the registers that reset discards hold 0 here (log 3), and the model's own fields are as logs 5, 6 and 7 say. -/
def State.resetWith (cap : Word) (ncur : Nat) (en : Encoding) : State where
  perm := { n := 0, seed := 0, rounds := 4, b := 0, h := 0, halfMask := 0 }
  status := 0
  walkCount := 0
  walkCap := cap
  encoding := en
  cursors := List.replicate ncur { pos := 0, stop := 0 }
  cmdPhase := .idle
  cmdData := 0
  walking := false
  dp := { x := 0, k := 0, r := 0, lanes := { lh := 0, rh := 0 } }
  hashPhase := .hidle
  hashMsg := 0
  response := { code := .ok, value := 0 }
  hashUnit := .contract
  hashSent := []
  io := []

/-- The state right after reset, `WALK_CAP`, `NCUR` and `ENC` at the spec's defaults (00 R7). DESIGN CHOICE (logs 2 and 11). -/
def State.reset : State := State.resetWith Config.walkCapDefault Config.ncurDefault .littleEndian

end Sys2Proof.Machine
end

