-- ==== Sys2Proof/Machine/Deriver.lean ====
section
/-! DEFINITION. The Parameter Deriver (40_parameter_deriver.md R65-R68): exact arithmetic on naturals, narrowed once, when the registers of the
Permutation are written. -/

namespace Sys2Proof.Machine

/-- `bitlen(v)` (00_scope.md R9): the number of binary digits of `v`, 0 for 0. -/
def bitlen (v : Nat) : Nat := if v = 0 then 0 else v.log2 + 1

/-- `b0(n)`, the unrounded width (R65). -/
def unroundedWidth (n : Nat) : Nat := if n ≤ 1 then 0 else bitlen (n - 1)

/-- `b = b0(n) + (b0(n) mod 2)` (R66). -/
def blockWidth (n : Nat) : Nat := unroundedWidth n + unroundedWidth n % 2

/-- `h = b / 2` (R67). -/
def halfWidth (n : Nat) : Nat := blockWidth n / 2

/-- `half_mask = 2^h − 1` (R67). -/
def halfMaskOf (n : Nat) : Nat := 2 ^ halfWidth n - 1

/-- The Permutation an accepted CONSTRUCT loads (R74): its three scalars and the geometry `derive(n)`. -/
def permOf (n seed : Word) (rounds : Byte) : Perm where
  n := n
  seed := seed
  rounds := rounds
  b := BitVec.ofNat 7 (blockWidth n.toNat)
  h := BitVec.ofNat 6 (halfWidth n.toNat)
  halfMask := BitVec.ofNat 32 (halfMaskOf n.toNat)

end Sys2Proof.Machine
end

