-- ==== Sys2Proof/Machine/Hash.lean ====
section
/-! DEFINITION. The Round Function and the hash message (41_round_function.md R76-R80; 20_memory.md R38). -/

namespace Sys2Proof.Machine

/-- A message encoding `ENC(seed, r, x)` (R79, OPEN for cross-checking: 00 R7). -/
abbrev Enc := Word → Byte → Half → Message

/-- What stands behind the hash port as the datapath sees it: the encoding of a request and the hash function of the unit. Every datapath
function takes one, so that what is proved of them holds for every hash and every encoding. -/
structure HashPort where
  enc : Enc
  hash : Message → Word

/-- The default encoding: `ENC(seed, r, x) = LE64(seed) ‖ LE64(r) ‖ LE64(x)` on the bus (R79, R62). Byte `k` of a string lies on bits `[8k+7:8k]` (00 R11), so
`LE64(v)` is `v` itself on its 64 bits and the first field is the lowest. -/
def enc : Enc := fun seed r x => x.setWidth 64 ++ r.setWidth 64 ++ seed

/-- The message encoding a machine is built with (R79; 93 I2): the default, or one that was substituted for it (log 11). -/
def Encoding.enc : Encoding → Enc
  | .littleEndian => Sys2Proof.Machine.enc
  | .substitute => fun seed r x => Config.encSubstitute (Sys2Proof.Machine.enc seed r x)

/-- The hash port of machine `s`: its encoding and the platform's hash (DESIGN CHOICE, log 1). -/
def State.hashPort (s : State) : HashPort := { enc := s.encoding.enc, hash := Config.hash }

/-- `LE64(v)`: byte `k` is `(v >> 8k) & 0xFF` (00 R11). -/
def le64 (v : Word) : List Byte := (List.range 8).map fun k => v.extractLsb' (8 * k) 8

/-- The 24 bytes of a message, byte `k` from bits `[8k+7:8k]` (30 R62). -/
def messageBytes (m : Message) : List Byte := (List.range 24).map fun k => m.extractLsb' (8 * k) 8

/-- The digest reduced to `h` bits (R77): `d & half_mask`. -/
def reduceDigest (p : Perm) (d : Word) : Half := (d &&& p.halfMask.setWidth 64).setWidth 32

/-- `F(r, x)` of the current Permutation (R76): one hash transaction, its digest masked. -/
def roundF (u : HashPort) (p : Perm) (r : Byte) (x : Half) : Half :=
  reduceDigest p (u.hash (u.enc p.seed r x))

end Sys2Proof.Machine
end

