-- ==== Sys2Proof/Machine/Feistel.lean ====
section
/-! DEFINITION. The Feistel Engine (42_feistel_engine.md R86-R92): the block layout, the round relations forward and backward, `encrypt`,
`decrypt`, and the messages each sends. -/

namespace Sys2Proof.Machine

/-- The halves of a block (R86): `L = x >> H`, `R = x & HALF_MASK`. -/
def splitBlock (p : Perm) (x : Word) : Lanes where
  lh := (x >>> p.h.toNat).setWidth 32
  rh := x.setWidth 32 &&& p.halfMask

/-- The block of two halves (R86): `(L << H) | R`. -/
def packBlock (p : Perm) (l : Lanes) : Word := (l.lh.setWidth 64 <<< p.h.toNat) ||| l.rh.setWidth 64

/-- One forward round with `f = F(r, R)` (R87): `(L, R) ← (R, L XOR f)`. -/
def mixForward (f : Half) (l : Lanes) : Lanes where
  lh := l.rh
  rh := l.lh ^^^ f

/-- One backward round with `f = F(r, L)` (R88): `(L, R) ← (R XOR f, L)`. -/
def mixBackward (f : Half) (l : Lanes) : Lanes where
  lh := l.rh ^^^ f
  rh := l.lh

/-- Round `r` of `encrypt` (R87). -/
def roundForward (u : HashPort) (p : Perm) (r : Nat) (l : Lanes) : Lanes :=
  mixForward (roundF u p (BitVec.ofNat 8 r) l.rh) l

/-- Round `r` of `decrypt` (R88). -/
def roundBackward (u : HashPort) (p : Perm) (r : Nat) (l : Lanes) : Lanes :=
  mixBackward (roundF u p (BitVec.ofNat 8 r) l.lh) l

/-- The halves after rounds `0 … count − 1`, in this order (R87). -/
def roundsForward (u : HashPort) (p : Perm) : Nat → Lanes → Lanes
  | 0, l => l
  | count + 1, l => roundForward u p count (roundsForward u p count l)

/-- The halves after rounds `count − 1 … 0`, in this order (R88). -/
def roundsBackward (u : HashPort) (p : Perm) : Nat → Lanes → Lanes
  | 0, l => l
  | count + 1, l => roundsBackward u p count (roundBackward u p count l)

/-- The messages of rounds `0 … count − 1` of `encrypt`, in the order sent (R92): round `r` carries the `Rh` before it. -/
def messagesForward (u : HashPort) (p : Perm) : Nat → Lanes → List Message
  | 0, _ => []
  | count + 1, l =>
    messagesForward u p count l ++ [u.enc p.seed (BitVec.ofNat 8 count) (roundsForward u p count l).rh]

/-- The messages of rounds `count − 1 … 0` of `decrypt`, in the order sent (R92): round `r` carries the `Lh` before it. -/
def messagesBackward (u : HashPort) (p : Perm) : Nat → Lanes → List Message
  | 0, _ => []
  | count + 1, l =>
    u.enc p.seed (BitVec.ofNat 8 count) l.lh :: messagesBackward u p count (roundBackward u p count l)

/-- `encrypt(x)` (R87): no swap and no output transform after the last round (R89). -/
def encrypt (u : HashPort) (p : Perm) (x : Word) : Word :=
  packBlock p (roundsForward u p p.rounds.toNat (splitBlock p x))

/-- `decrypt(x)` (R88, R89). -/
def decrypt (u : HashPort) (p : Perm) (x : Word) : Word :=
  packBlock p (roundsBackward u p p.rounds.toNat (splitBlock p x))

/-- Which way a walk goes (43_cycle_walker.md R94): `forward` steps by `encrypt`, `inverse` by `decrypt`. -/
inductive Direction where
  | forward
  | inverse
  deriving DecidableEq, Repr

/-- One application of the walk's step function to a block value (R94). -/
def applyStep (u : HashPort) (p : Perm) : Direction → Word → Word
  | .forward, x => encrypt u p x
  | .inverse, x => decrypt u p x

/-- The messages of one application (R92). -/
def stepMessages (u : HashPort) (p : Perm) : Direction → Word → List Message
  | .forward, x => messagesForward u p p.rounds.toNat (splitBlock p x)
  | .inverse, x => messagesBackward u p p.rounds.toNat (splitBlock p x)

end Sys2Proof.Machine
end

