-- ==== Sys2Proof/Machine/Walker.lean ====
section
/-! DEFINITION. The Cycle Walker (43_cycle_walker.md R94-R97). -/

namespace Sys2Proof.Machine

/-- What a walk returns (R94): the pair (code, value), the number of walk steps it performed (R97), and the messages it sent (R92). -/
structure WalkResult where
  code : Code
  value : Word
  steps : Nat
  sent : List Message
  deriving DecidableEq, Repr

/-- The loop of R94 at walk value `x` after `k` steps, with `left = WALK_CAP − k` steps left: the cap is tested first (R96), the step is applied at least
once before the domain is tested. -/
def walkLoop (u : HashPort) (p : Perm) (d : Direction) : Nat → Nat → Word → WalkResult
  | 0, k, _ => { code := .internalInvariantViolation, value := 0, steps := k, sent := [] }
  | left + 1, k, x =>
    if applyStep u p d x < p.n then
      { code := .ok, value := applyStep u p d x, steps := k + 1, sent := stepMessages u p d x }
    else
      let rest := walkLoop u p d left (k + 1) (applyStep u p d x)
      { rest with sent := stepMessages u p d x ++ rest.sent }

/-- `walk(x0, step)` under the cap `cap` (R94); a trivial Permutation returns `x0` at once (R95). -/
def walk (u : HashPort) (p : Perm) (cap : Word) (d : Direction) (x0 : Word) : WalkResult :=
  if p.b = 0 then { code := .ok, value := x0, steps := 0, sent := [] }
  else walkLoop u p d cap.toNat 0 x0

end Sys2Proof.Machine
end

