-- ==== Sys2Proof/Machine/Flags.lean ====
section
/-! DEFINITION. STATUS and WALK_COUNT (10_state.md R29-R31): PRS-CORE's only flag, its one observation register, and the one operation that writes them. -/

namespace Sys2Proof.Machine

/-- `STATUS.IIV`, bit 0 (R29). -/
def State.iiv (s : State) : Bool := s.status.getLsbD 0

/-- STATUS as READ_STATE returns it (R29): bits 63:1 always read 0. -/
def State.statusRead (s : State) : Word := s.status &&& 1

/-- What a walk's end writes (43 R94, R96, R97): WALK_COUNT once, IIV only when the cap was reached; and the messages it sent go to the model's record
of hash traffic (log 6). -/
def State.recordWalk (w : WalkResult) (s : State) : State :=
  { s with
    walkCount := BitVec.ofNat 64 w.steps
    status := if w.code = .internalInvariantViolation then s.status ||| 1 else s.status
    hashSent := s.hashSent ++ w.sent }

end Sys2Proof.Machine
end

