-- ==== Sys2Proof/Machine/Ops.lean ====
section
/-! DEFINITION. The shared operations: ending a command with a response or an error (00_scope.md R13, 60_exceptions.md R113-R122), the cursor file
(10_state.md R34), ending a walk, and the reset edge (70_reset_and_hazards.md R132). -/

namespace Sys2Proof.Machine

/-- What one step answers. -/
abbrev Result := Host.Outcome State Fault Refusal

/-- `respond(code, value)` (00 R13): the command ends, its response record is offered, the phase is RESP (70 R136), no walk and no hash transaction is
under way. The latched record is not cleared: what it holds once its command has completed the spec does not say (DESIGN CHOICE, log 13). -/
def State.respond (code : Code) (value : Word) (s : State) : State :=
  { s with
    cmdPhase := .resp
    response := { code := code, value := value }
    walking := false
    hashPhase := .hidle }

/-- `raise CODE` (00 R13; 60 R113, R121): PRS-CORE's whole way of taking an error. The response carries value 0; no state is saved, no mode changes
and control goes nowhere, and there is no return from it: taking the response is (60 R122). -/
def State.raise (code : Code) (s : State) : State := s.respond code 0

/-- `NCUR` (R32): the number of cursors in the file. -/
def State.ncur (s : State) : Nat := s.cursors.length

/-- Cursor `c`; `none` for a slot that is not in the file (30 R57). -/
def State.cursor? (s : State) (c : Byte) : Option Cursor := s.cursors[c.toNat]?

/-- Write cursor `c`. -/
def State.setCursor (c : Byte) (cur : Cursor) (s : State) : State :=
  { s with cursors := s.cursors.set c.toNat cur }

/-- Set every cursor to (0, 0) (40 R74). -/
def State.clearCursors (s : State) : State :=
  { s with cursors := s.cursors.map fun _ => { pos := 0, stop := 0 } }

/-- The end of a GET's or INVERT's walk (44 R103, R104). -/
def State.closeQuery (w : WalkResult) (s : State) : State :=
  (s.recordWalk w).respond w.code w.value

/-- A cursor after a NEXT's walk ended (45 R108): one further on OK, where it was otherwise (D35). -/
def advanceCursor (w : WalkResult) (cur : Cursor) : Cursor :=
  if w.code = .ok then { cur with pos := cur.pos + 1 } else cur

/-- The end of a NEXT's walk on slot `c`, which held `cur` (45 R108). -/
def State.closeNext (c : Byte) (cur : Cursor) (w : WalkResult) (s : State) : State :=
  ((s.recordWalk w).setCursor c (advanceCursor w cur)).respond w.code w.value

/-- A reset edge (70 R131, R132): every register at its reset value, the command in flight abandoned. It keeps the parameters WALK_CAP, NCUR and ENC, and what is
outside PRS-CORE: the hash unit (R134), the traffic already sent, the input samples to come. -/
def State.resetEdge (s : State) : State :=
  { State.resetWith s.walkCap s.ncur s.encoding with
    hashUnit := s.hashUnit
    hashSent := s.hashSent
    io := s.io }

end Sys2Proof.Machine
end

