-- ==== Sys2Proof/Machine/Construct.lean ====
section
/-! DEFINITION. CONSTRUCT (40_parameter_deriver.md R74). -/

namespace Sys2Proof.Machine

/-- `CONSTRUCT n, seed, rounds` (R74): INVALID_DOMAIN if `n > N_MAX` (R71) or `rounds = 0` (R72), with nothing written; else the new Permutation, and every
cursor cleared. -/
def execConstruct (n seed : Word) (rounds : Byte) (s : State) : Result :=
  if Config.nMax < n then .next (s.raise .invalidDomain)
  else if rounds = 0 then .next (s.raise .invalidDomain)
  else .next (State.respond .ok 0 (State.clearCursors { s with perm := permOf n seed rounds }))

end Sys2Proof.Machine
end

