-- ==== Sys2Proof/Machine/Iteration.lean ====
section
/-! DEFINITION. ITER, RANGE and NEXT (45_iteration_commands.md R106-R108). A slot that is not in the cursor file is an illegal command (30_encoding.md R57): the
decoder refuses it, and a term of Instr that names one completes the same way (DEDUCED, log 9). -/

namespace Sys2Proof.Machine

/-- Open slot `c` as `(lo, hi)`. -/
def State.openCursor (c : Byte) (lo hi : Word) (s : State) : State :=
  (s.setCursor c { pos := lo, stop := hi }).respond .ok 0

/-- `ITER c` (R106). -/
def execIter (c : Byte) (s : State) : Result :=
  if c.toNat < s.ncur then .next (s.openCursor c 0 s.perm.n)
  else .next (s.raise .illegalCommand)

/-- `RANGE c, lo, hi` (R107): INVALID_RANGE if `lo > hi` or `hi > N`, the slot as it was. -/
def execRange (c : Byte) (lo hi : Word) (s : State) : Result :=
  if c.toNat < s.ncur then
    if hi < lo ∨ s.perm.n < hi then .next (s.raise .invalidRange)
    else .next (s.openCursor c lo hi)
  else .next (s.raise .illegalCommand)

/-- `NEXT c` (R108) for a given hash port: END_OF_SEQUENCE on an exhausted cursor, with nothing written, else the forward walk from `CUR_POS[c]`. -/
def nextWith (u : HashPort) (c : Byte) (s : State) : Result :=
  match s.cursor? c with
  | none => .next (s.raise .illegalCommand)
  | some cur =>
    if cur.stop ≤ cur.pos then .next (s.raise .endOfSequence)
    else .next (s.closeNext c cur (walk u s.perm s.walkCap .forward cur.pos))

/-- `NEXT c` (R108). -/
def execNext (c : Byte) (s : State) : Result := nextWith s.hashPort c s

end Sys2Proof.Machine
end

