-- ==== Sys2Proof/Machine/Query.lean ====
section
/-! DEFINITION. GET and INVERT (44_query_commands.md R103, R104). -/

namespace Sys2Proof.Machine

/-- A query on operand `x` in direction `d`, for a given hash port: OUT_OF_RANGE if `x ≥ N`, with nothing written, else the walk from `x`. -/
def queryWith (u : HashPort) (d : Direction) (x : Word) (s : State) : Result :=
  if s.perm.n ≤ x then .next (s.raise .outOfRange)
  else .next (s.closeQuery (walk u s.perm s.walkCap d x))

/-- `GET i` (R103). -/
def execGet (i : Word) (s : State) : Result := queryWith s.hashPort .forward i s

/-- `INVERT j` (R104). -/
def execInvert (j : Word) (s : State) : Result := queryWith s.hashPort .inverse j s

end Sys2Proof.Machine
end

