-- ==== Sys2Proof/Machine/Operands.lean ====
section
/-! DEFINITION. The one operand form that reads state: the register a READ_STATE index selects (46_state_access.md R111, R112). Every other operand travels in
the record as it stands (30_encoding.md R54). -/

namespace Sys2Proof.Machine

/-- The register zero-extended to 64 bits (R112, 10 R16); `none` for a cursor that is not in the file. -/
def State.readReg (s : State) : StateReg → Option Word
  | .n => some s.perm.n
  | .seed => some s.perm.seed
  | .rounds => some (s.perm.rounds.setWidth 64)
  | .b => some (s.perm.b.setWidth 64)
  | .h => some (s.perm.h.setWidth 64)
  | .halfMask => some (s.perm.halfMask.setWidth 64)
  | .status => some s.statusRead
  | .walkCount => some s.walkCount
  | .walkCap => some s.walkCap
  | .ncur => some (BitVec.ofNat 64 s.ncur)
  | .nMax => some Config.nMax
  | .curPos c => (s.cursor? c).map Cursor.pos
  | .curEnd c => (s.cursor? c).map Cursor.stop

end Sys2Proof.Machine
end

