-- ==== Sys2Proof/Machine/StateAccess.lean ====
section
/-! DEFINITION. READ_STATE (46_state_access.md R112). -/

namespace Sys2Proof.Machine

/-- `READ_STATE reg` (R112): the register's value, nothing written. A cursor that is not in the file has no mapped index (R111), and is an illegal command (DEDUCED, log 9). -/
def execReadState (reg : StateReg) (s : State) : Result :=
  match s.readReg reg with
  | some v => .next (s.respond .ok v)
  | none => .next (s.raise .illegalCommand)

end Sys2Proof.Machine
end

