-- ==== Sys2Proof/Machine/Dispatch.lean ====
section
/-! DEFINITION. exec: one arm per constructor of Instr, each one direct call of its meaning. -/

namespace Sys2Proof.Machine

def exec (i : Instr) (s : State) : Host.Outcome State Fault Refusal :=
  match i with
  | .construct n seed rounds => Sys2Proof.Machine.execConstruct n seed rounds s
  | .get x => Sys2Proof.Machine.execGet x s
  | .invert j => Sys2Proof.Machine.execInvert j s
  | .iter c => Sys2Proof.Machine.execIter c s
  | .range c lo hi => Sys2Proof.Machine.execRange c lo hi s
  | .next c => Sys2Proof.Machine.execNext c s
  | .readState reg => Sys2Proof.Machine.execReadState reg s

end Sys2Proof.Machine
end

