-- ==== Sys2Proof/Machine/Ports.lean ====
section
/-! DEFINITION. The ports (30_encoding.md R51, R61, R62): the response record's layout, the output pins as functions of the state and rst, and what the command
and response handshakes do (70_reset_and_hazards.md R136). -/

namespace Sys2Proof.Machine

/-- The `CODE` values (60_exceptions.md R113). -/
def codeByte : Code → Byte
  | .ok => 0x00
  | .outOfRange => 0x01
  | .invalidRange => 0x02
  | .invalidDomain => 0x03
  | .internalInvariantViolation => 0x04
  | .endOfSequence => 0x05
  | .illegalCommand => 0x06

/-- The response record on `rsp_data[71:0]` (R61): `CODE` in bits 7:0, `VALUE` in bits 71:8. -/
def rspBits (r : Response) : BitVec 72 := r.value ++ codeByte r.code

/-- The output pins (R51). An offered record is `some` of its bits: `rsp_valid` and `rsp_data` are one field, and so are `hash_req_valid` and
`hash_req_data`, since the spec gives the data wires no value while `valid` is 0 (DESIGN CHOICE, log 10). -/
structure PortOut where
  cmdReady : Bool
  rsp : Option (BitVec 72)
  hashReq : Option Message
  iivFault : Bool
  deriving DecidableEq, Repr

/-- What PRS-CORE drives in state `s` while the reset pin is `rst` (70 R131, R136; 41 R82; 10 R30). -/
def State.outputs (rst : Bool) (s : State) : PortOut where
  cmdReady := !rst && decide (s.cmdPhase = .idle)
  rsp := if !rst && decide (s.cmdPhase = .resp) then some (rspBits s.response) else none
  hashReq := if !rst && decide (s.hashPhase = .hreq) then some s.hashMsg else none
  iivFault := s.iiv

/-- The edge at which every input pin is 0. -/
def quietPins : PortIn where
  rst := false
  cmdValid := false
  cmdData := 0
  rspReady := false
  hashReqReady := false
  hashRspValid := false
  hashRspData := 0

/-- The input sample of the coming edge; the quiet pins when none is listed (log 7). -/
def State.pinsNow (s : State) : PortIn := s.io.headD quietPins

/-- The edge's sample is used up. -/
def State.tick (s : State) : State := { s with io := s.io.tail }

/-- The command handshake (R52, R136, R137): the record on `cmd_data` at the transfer edge is latched and the phase is EXEC. The response
register keeps the response that was taken last (DESIGN CHOICE, log 13). -/
def State.accept (w : Record) (s : State) : State :=
  { s with cmdPhase := .exec, cmdData := w, walking := false }

/-- The response handshake (R52, R136): the response is taken and the phase is IDLE. The response register and the latched record keep
their values: what they hold when no response is pending and no command executes the spec does not say (DESIGN CHOICE, log 13). -/
def State.release (s : State) : State := { s with cmdPhase := .idle }

/-- The state `s` with the record `w` accepted and the coming edge's rst at 0, so that the next step executes it (log 8). -/
def State.placeCommand (w : Record) (s : State) : State :=
  { s.accept w with
    hashUnit := .contract
    io := match s.io with
      | [] => []
      | e :: rest => { e with rst := false } :: rest }

end Sys2Proof.Machine
end

