-- ==== Sys2Proof/Machine/Clock.lean ====
section
/-! DEFINITION. A command in EXEC. With a hash unit that keeps its contract the whole command is one step (`executeLatched`). With a hash unit seen on its
pins (`execEdge`) a walk is run edge by edge through the hash transaction phases of 41_round_function.md R82-R84 and the datapath registers of 10_state.md
R37; it ends with the same closing operations. The schedule of the edges is the model's (DESIGN CHOICE, log 4). -/

namespace Sys2Proof.Machine

/-- Execute the latched record (30 R57; 60 R114): its command's meaning, or ILLEGAL_COMMAND. -/
def State.executeLatched (s : State) : Result :=
  match decode s.ncur s.cmdData with
  | .command i => exec i s
  | .illegal _ => .next (s.raise .illegalCommand)

/-- The walk a command asks for once its operand check has passed, unless the Permutation is trivial (43_cycle_walker.md R94, R95): its direction and start value.
`none` for a command that ends without a hash transaction. -/
def State.walkRequest (s : State) : Instr → Option (Direction × Word)
  | .get i => if s.perm.n ≤ i ∨ s.perm.b = 0 then none else some (.forward, i)
  | .invert j => if s.perm.n ≤ j ∨ s.perm.b = 0 then none else some (.inverse, j)
  | .next c =>
    match s.cursor? c with
    | none => none
    | some cur => if cur.stop ≤ cur.pos ∨ s.perm.b = 0 then none else some (.forward, cur.pos)
  | .construct _ _ _ => none
  | .iter _ => none
  | .range _ _ _ => none
  | .readState _ => none

/-- A walk's end as its command takes it: NEXT by 45 R108, GET and INVERT by 44 R103 and R104. -/
def State.closeWalk (i : Instr) (w : WalkResult) (s : State) : State :=
  match i with
  | .next c =>
    match s.cursor? c with
    | some cur => s.closeNext c cur w
    | none => s.closeQuery w
  | _ => s.closeQuery w

/-- The round a pass starts with (42 R87, R88). -/
def firstRound (p : Perm) : Direction → Byte
  | .forward => 0
  | .inverse => p.rounds - 1

/-- The round a pass ends with (42 R87, R88). -/
def lastRound (p : Perm) : Direction → Byte
  | .forward => p.rounds - 1
  | .inverse => 0

/-- The round after `r` (42 R87, R88). -/
def nextRound (r : Byte) : Direction → Byte
  | .forward => r + 1
  | .inverse => r - 1

/-- The half block a round sends to F (42 R87, R88): the old `Rh` forward, the old `Lh` backward. -/
def roundInput (l : Lanes) : Direction → Half
  | .forward => l.rh
  | .inverse => l.lh

/-- The halves after a round whose F is `f` (42 R87, R88). -/
def mixRound (f : Half) (l : Lanes) : Direction → Lanes
  | .forward => mixForward f l
  | .inverse => mixBackward f l

/-- The top of the walk's loop at walk value `x` after `k` steps (43 R94): the cap first (R96), else the next pass starts. At the cap the datapath registers are not
written: they keep what the last pass left in them (DESIGN CHOICE, log 12). -/
def State.walkTurn (i : Instr) (d : Direction) (k x : Word) (s : State) : State :=
  if k = s.walkCap then
    s.closeWalk i { code := .internalInvariantViolation, value := 0, steps := k.toNat, sent := [] }
  else
    { s with
      walking := true
      hashPhase := .hidle
      dp := { x := x, k := k, r := firstRound s.perm d, lanes := splitBlock s.perm x } }

/-- A pass is over with the halves `l` (43 R94): the walk value and step count move, the domain is tested. Where the walk ends here, its result and step count go to the
response and to WALK_COUNT only; the hidden registers keep what they held in the last round, since 10 R37 does not say what they hold after a walk (DESIGN CHOICE, log 12). -/
def State.endPass (i : Instr) (d : Direction) (l : Lanes) (s : State) : State :=
  if packBlock s.perm l < s.perm.n then
    s.closeWalk i { code := .ok, value := packBlock s.perm l, steps := (s.dp.k + 1).toNat, sent := [] }
  else s.walkTurn i d (s.dp.k + 1) (packBlock s.perm l)

/-- The digest of the pending request is `g` (41 R82 item 3; 42 R87, R88): the round's halves, then the next round or the end of the pass. -/
def State.takeDigest (i : Instr) (d : Direction) (g : Word) (s : State) : State :=
  if s.dp.r = lastRound s.perm d then
    s.endPass i d (mixRound (reduceDigest s.perm g) s.dp.lanes d)
  else
    { s with
      hashPhase := .hidle
      dp := { s.dp with
        r := nextRound s.dp.r d
        lanes := mixRound (reduceDigest s.perm g) s.dp.lanes d } }

/-- One edge of a walk under way (41 R82): offer the round's message, have it accepted, take its digest; without the hash unit's pin, wait (R84). A digest
that comes in another phase than HWAIT is not looked at (R83). -/
def State.walkEdge (en : Enc) (i : Instr) (d : Direction) (e : PortIn) (s : State) : State :=
  match s.hashPhase with
  | .hidle => { s with hashPhase := .hreq, hashMsg := en s.perm.seed s.dp.r (roundInput s.dp.lanes d) }
  | .hreq => if e.hashReqReady then { s with hashPhase := .hwait, hashSent := s.hashSent ++ [s.hashMsg] } else s
  | .hwait => if e.hashRspValid then s.takeDigest i d e.hashRspData else s

/-- One edge in EXEC with the hash unit seen on its pins: the first decodes, checks the operand and starts the walk, or completes a command that needs none;
the later ones run the walk. -/
def State.execEdge (en : Enc) (e : PortIn) (s : State) : Result :=
  match decode s.ncur s.cmdData with
  | .illegal _ => .next (s.raise .illegalCommand)
  | .command i =>
    match s.walkRequest i with
    | none => exec i s
    | some (d, x0) => .next (if s.walking then s.walkEdge en i d e else s.walkTurn i d 0 x0)

/-- One edge in EXEC. -/
def State.executeEdge (e : PortIn) (s : State) : Result :=
  match s.hashUnit with
  | .contract => s.executeLatched
  | .pins => s.execEdge s.hashPort.enc e

/-- One rising edge of `clk` with the input pins `e` (70 R131, R133, R136): reset before all else; IDLE accepts an offered command, EXEC executes, RESP waits for the
host to take the response. -/
def State.edge (e : PortIn) (s : State) : Result :=
  if e.rst then .next s.resetEdge
  else match s.cmdPhase with
    | .idle => .next (if e.cmdValid then s.accept e.cmdData else s)
    | .exec => s.executeEdge e
    | .resp => .next (if e.rspReady then s.release else s)

end Sys2Proof.Machine
end

