-- ==== Sys2Proof/Machine/Step.lean ====
section
/-! DEFINITION. One step, and how a command is put where the next step executes it. -/

namespace Sys2Proof.Machine

/-- One step: the coming rising edge of `clk`, its input sample used up. -/
def step (s : State) : Host.Outcome State Fault Refusal := s.tick.edge s.pinsNow

/-- `s` with the command record whose low `nbits` bits are `w`, the rest 0, accepted (log 8): the command phase is EXEC and the record is latched, as after the
transfer edge of 70 R136, with a hash unit that keeps its contract and rst at 0 on the coming edge. -/
def State.withFetchWord (s : State) (nbits w : Nat) : State := s.placeCommand (tableRecord nbits w)

end Sys2Proof.Machine
end

