-- ==== Sys2Proof/Safety.lean ====
section
/-! DEFINITION. What the statements are about, beside the machine itself: the legal states (10_state.md R21-R35), what the ports show of a state, and how a hash
unit keeps its contract edge by edge (41_round_function.md R80, 70_reset_and_hazards.md R138, R139). -/

namespace Sys2Proof.Machine

/-- A Permutation an accepted CONSTRUCT or a reset can have loaded (R21-R27): `N ≤ N_MAX`, `ROUNDS ≥ 1`, the geometry that of `N`. -/
structure Perm.Legal (p : Perm) : Prop where
  n_le : p.n ≤ Config.nMax
  rounds_ne : p.rounds ≠ 0
  geometry : p = permOf p.n p.seed p.rounds

/-- What holds of the hidden registers while a walk is under way (R37; 41 R78; 42 R90; 43 R94): a command that asks for a walk is executing, fewer than WALK_CAP
steps are done, the round counter is below ROUNDS, the half blocks fit their mask. -/
structure State.WalkLegal (s : State) : Prop where
  phase : s.cmdPhase = .exec
  request : ∃ i d x0, decode s.ncur s.cmdData = .command i ∧ s.walkRequest i = some (d, x0)
  k_lt : s.dp.k < s.walkCap
  r_lt : s.dp.r < s.perm.rounds
  lh_le : s.dp.lanes.lh ≤ s.perm.halfMask
  rh_le : s.dp.lanes.rh ≤ s.perm.halfMask

/-- The legal states: the machine's parameters in their ranges (00 R7), the invariants R27, R29, R31 and R35, the response record's rule (30 R61), and the hidden
registers as `WalkLegal` says while a walk is under way. -/
structure State.Legal (s : State) : Prop where
  cap_ne : s.walkCap ≠ 0
  ncur_pos : 1 ≤ s.ncur
  ncur_le : s.ncur ≤ Config.ncurMax
  perm : s.perm.Legal
  status : s.status &&& 1 = s.status
  walkCount : s.walkCount ≤ s.walkCap
  cursors : ∀ cur ∈ s.cursors, cur.pos ≤ cur.stop ∧ cur.stop ≤ s.perm.n
  response : s.response.code ≠ .ok → s.response.value = 0
  hash : s.hashPhase ≠ .hidle → s.walking = true
  walk : s.walking = true → s.WalkLegal

/-- What of a state a host can see, by READ_STATE, on the response and hash ports, or by the phase it is in: everything but the hidden datapath, the latched record
and what lies outside PRS-CORE (R16, R37). -/
structure Visible where
  perm : Perm
  status : BitVec 64
  walkCount : Word
  walkCap : Word
  cursors : List Cursor
  cmdPhase : CmdPhase
  response : Response
  hashSent : List Message
  deriving DecidableEq, Repr

/-- The visible part of a state. -/
def State.visible (s : State) : Visible where
  perm := s.perm
  status := s.status
  walkCount := s.walkCount
  walkCap := s.walkCap
  cursors := s.cursors
  cmdPhase := s.cmdPhase
  response := s.response
  hashSent := s.hashSent

/-- At the coming edge the hash unit does nothing against its contract: no reset comes, and a digest it returns for the pending request is the hash of its
message (41 R80). It may be slow. -/
def State.HashKept (hash : Message → Word) (s : State) : Prop :=
  s.pinsNow.rst = false ∧
  (s.hashPhase = .hwait → s.pinsNow.hashRspValid = true → s.pinsNow.hashRspData = hash s.hashMsg)

/-- `Served hash n s t`: `n` steps, each from a state in EXEC at which the hash unit keeps its contract, lead from `s` to `t`. -/
inductive Served (hash : Message → Word) : Nat → State → State → Prop where
  | here (s : State) : Served hash 0 s s
  | edge {n : Nat} {s s' t : State} :
      s.cmdPhase = .exec → s.HashKept hash → step s = .next s' → Served hash n s' t → Served hash (n + 1) s t

/-- The responses of `count` NEXT commands on slot `c`, one after the other, each response taken before the next command (45_iteration_commands.md R109). -/
def pulls (c : Byte) : Nat → State → List Response
  | 0, _ => []
  | count + 1, s =>
    match exec (.next c) s with
    | .next t => t.response :: pulls c count t.release
    | .fault _ => []
    | .refused _ => []

/-- The response of command `i` in state `s`; `none` if it answers none. -/
def responseTo (i : Instr) (s : State) : Option Response :=
  match exec i s with
  | .next t => some t.response
  | .fault _ => none
  | .refused _ => none

end Sys2Proof.Machine
end

