-- ==== Sys2Proof/Certificates/Slice0/Obligations.lean ====
section
/-! DEFINITION. The statements for the provers. Each formalises rules of spec/, named in its docstring. `{ s with cmdPhase := .resp, response := …, walking := false,
hashPhase := .hidle }` is how a command ends: its response is offered (70 R136) and no walk or hash transaction is under way. exec is the command with a hash unit
that keeps its contract: that a walk there leaves the hidden walk datapath and the request message (10 R37) as they were is log 5's choice, wherever a statement about
exec says so. That the latched record stays when its command completes, and the response register while no response is pending, which such an update also
says, is log 13's. The machine's message encoding ENC (00 R7) is `s.hashPort.enc` (log 11). -/

open Sys2Proof Sys2Proof.Machine

/-! Encoding -/

/-- R55, R56, R63, R111: the record of every command of a machine with `ncur` cursors decodes to that command, with every operand. -/
def Obligations.DecodeOfEncodeIsIdentity : Prop :=
  ∀ (ncur : Nat) (i : Instr), i.wf ncur = true → decode ncur (encode i) = .command i

/-- R54, R56, R57: what a record decodes to meets its side condition, its header is exactly the header of that command's record, and the operand words it uses
are read as they stand. -/
def Obligations.DecodedCommandsAreExact : Prop :=
  ∀ (ncur : Nat) (w : Record) (i : Instr), decode ncur w = .command i →
    i.wf ncur = true ∧ w.extractLsb' 0 32 = (encode i).extractLsb' 0 32 ∧
    match i with
    | .construct n seed _ => n = fieldA w ∧ seed = fieldBop w
    | .get x => x = fieldA w
    | .invert x => x = fieldA w
    | .range _ lo hi => lo = fieldA w ∧ hi = fieldBop w
    | .iter _ | .next _ | .readState _ => True

/-- R57, R58, R111: the records that select no command are exactly the listed ones. -/
def Obligations.IllegalRecordsAreExactlyTheListed : Prop :=
  ∀ (ncur : Nat) (w : Record),
    (∃ why, decode ncur w = .illegal why) ↔
      (fieldOp w = 0 ∨ 8 ≤ (fieldOp w).toNat) ∨
      fieldRsvd w ≠ 0 ∨
      (fieldRnd w ≠ 0 ∧ fieldOp w ≠ 1) ∨
      (fieldIdx w ≠ 0 ∧ (fieldOp w = 1 ∨ fieldOp w = 2 ∨ fieldOp w = 3)) ∨
      (ncur ≤ (fieldIdx w).toNat ∧ (fieldOp w = 4 ∨ fieldOp w = 5 ∨ fieldOp w = 6)) ∨
      (fieldOp w = 7 ∧ ¬ ((fieldIdx w).toNat ≤ 0x0A ∨
        0x10 ≤ (fieldIdx w).toNat ∧ ((fieldIdx w).toNat - 0x10) / 2 < ncur))

/-- R53, R55: records written out from the spec's layout, of each family, decode to the commands they stand for, with `NCUR = 4`. -/
def Obligations.SpecRecordsDecode : Prop :=
  decode 4 0x0000000000000001000000000000000400010001 = .command (.construct 4 1 1) ∧
  decode 4 0x0000000000000000000000000000000100000002 = .command (.get 1) ∧
  decode 4 0x0000000000000000000000000000000c00000003 = .command (.invert 12) ∧
  decode 4 0x0000000000000000000000000000000000000204 = .command (.iter 2) ∧
  decode 4 0x0000000000000003000000000000000100000105 = .command (.range 1 1 3) ∧
  decode 4 0x0000000000000000000000000000000000000106 = .command (.next 1) ∧
  decode 4 0x0000000000000000000000000000000000001707 = .command (.readState (.curEnd 3))

/-! The step, the handshakes and reset -/

/-- 20 R45, 70 R136: in EXEC, with a hash unit that keeps its contract and no reset, a step is exec of the latched record's command, the edge's input sample
used up. -/
def Obligations.StepRunsLatchedCommand : Prop :=
  ∀ (s : State) (i : Instr), s.cmdPhase = .exec → s.hashUnit = .contract → s.pinsNow.rst = false →
    decode s.ncur s.cmdData = .command i → step s = exec i s.tick

/-- The model's way of placing a command (log 8): the next step is exec of it. -/
def Obligations.PlacedCommandRunsNext : Prop :=
  ∀ (s : State) (nbits w : Nat) (i : Instr), decode s.ncur (tableRecord nbits w) = .command i →
    step (s.withFetchWord nbits w) = exec i (s.withFetchWord nbits w).tick

/-- R57, R114: a latched record that selects no command (the list of R114) completes with ILLEGAL_COMMAND and value 0; nothing else changes and no message is sent, with either
hash unit.
That the latched record stays is log 13's choice. -/
def Obligations.IllegalCommandChangesNothing : Prop :=
  ∀ s : State, s.cmdPhase = .exec → s.pinsNow.rst = false →
    ((fieldOp s.cmdData = 0 ∨ 8 ≤ (fieldOp s.cmdData).toNat) ∨
      fieldRsvd s.cmdData ≠ 0 ∨
      (fieldRnd s.cmdData ≠ 0 ∧ fieldOp s.cmdData ≠ 1) ∨
      (fieldIdx s.cmdData ≠ 0 ∧ (fieldOp s.cmdData = 1 ∨ fieldOp s.cmdData = 2 ∨ fieldOp s.cmdData = 3)) ∨
      (s.ncur ≤ (fieldIdx s.cmdData).toNat ∧
        (fieldOp s.cmdData = 4 ∨ fieldOp s.cmdData = 5 ∨ fieldOp s.cmdData = 6)) ∨
      (fieldOp s.cmdData = 7 ∧ ¬ ((fieldIdx s.cmdData).toNat ≤ 0x0A ∨
        0x10 ≤ (fieldIdx s.cmdData).toNat ∧ ((fieldIdx s.cmdData).toNat - 0x10) / 2 < s.ncur))) →
    step s = .next { s with
      cmdPhase := .resp
      response := { code := .illegalCommand, value := 0 }
      walking := false
      hashPhase := .hidle
      io := s.io.tail }

/-- R136, R52: with rst at 0, IDLE accepts an offered record and only then leaves; RESP is left only when the host takes the response, whatever it offers; nothing
else changes.
That the latched record stays at the taking of the response, and the response register, the walk datapath and the request message there and at the acceptance, is log 13's choice. -/
def Obligations.HandshakesMoveThePhase : Prop :=
  ∀ s : State, s.pinsNow.rst = false →
    (s.cmdPhase = .idle → s.pinsNow.cmdValid = true →
      step s = .next { s with cmdPhase := .exec, cmdData := s.pinsNow.cmdData, walking := false, io := s.io.tail }) ∧
    (s.cmdPhase = .idle → s.pinsNow.cmdValid = false → step s = .next { s with io := s.io.tail }) ∧
    (s.cmdPhase = .resp → s.pinsNow.rspReady = true → step s = .next { s with cmdPhase := .idle, io := s.io.tail }) ∧
    (s.cmdPhase = .resp → s.pinsNow.rspReady = false → step s = .next { s with io := s.io.tail })

/-- R30, R131, R136, R82: what the output pins show. -/
def Obligations.OutputPinsShowThePhase : Prop :=
  ∀ (s : State) (rst : Bool),
    ((s.outputs rst).cmdReady = true ↔ s.cmdPhase = .idle ∧ rst = false) ∧
    ((s.outputs rst).rsp = if rst = false ∧ s.cmdPhase = .resp then some (rspBits s.response) else none) ∧
    ((s.outputs rst).hashReq = if rst = false ∧ s.hashPhase = .hreq then some s.hashMsg else none) ∧
    ((s.outputs rst).iivFault = s.status.getLsbD 0)

/-- R61, R113: the response record's fields on the wires, and the code of each error. -/
def Obligations.ResponseRecordLayout : Prop :=
  ∀ r : Response,
    (rspBits r).extractLsb' 8 64 = r.value ∧
    ((rspBits r).extractLsb' 0 8).toNat =
      match r.code with
      | .ok => 0
      | .outOfRange => 1
      | .invalidRange => 2
      | .invalidDomain => 3
      | .internalInvariantViolation => 4
      | .endOfSequence => 5
      | .illegalCommand => 6

/-- R131, R132: a reset edge, in any phase, gives every register its reset value and abandons the command; the constants stay. What was in the discarded registers leaves no trace:
states that agree on the constants (and on the parameter ENC, log 11, and in the model's fields for what lies outside PRS-CORE) become the same state. While rst is 1 nothing is offered and no command is taken. -/
def Obligations.ResetEdgeRestoresResetValues : Prop :=
  ∀ s : State, s.pinsNow.rst = true →
    (∃ t, step s = .next t ∧
      t.perm = { n := 0, seed := 0, rounds := 4, b := 0, h := 0, halfMask := 0 } ∧
      t.cursors = List.replicate s.ncur { pos := 0, stop := 0 } ∧
      t.status = 0 ∧ t.walkCount = 0 ∧ t.cmdPhase = .idle ∧ t.hashPhase = .hidle ∧
      t.walkCap = s.walkCap ∧ t.ncur = s.ncur) ∧
    (∀ s' : State, s'.walkCap = s.walkCap → s'.ncur = s.ncur → s'.encoding = s.encoding → s'.hashUnit = s.hashUnit →
      s'.hashSent = s.hashSent → s'.io = s.io → step s' = step s) ∧
    s.outputs true = { cmdReady := false, rsp := none, hashReq := none, iivFault := s.iiv }

/-- R28, R29, R31, R34, R132: the reset state of every machine whose parameters are in range, whatever its encoding, is legal. -/
def Obligations.ResetIsLegal : Prop :=
  ∀ (cap : Word) (ncur : Nat) (en : Encoding), cap ≠ 0 → 1 ≤ ncur → ncur ≤ Config.ncurMax →
    (State.resetWith cap ncur en).Legal

/-- R17, R27, R29, R31, R35, R61, R78, R90: every step keeps the legal states, with either hash unit and whatever the input pins show. -/
def Obligations.StepKeepsLegal : Prop :=
  ∀ s t : State, s.Legal → step s = .next t → t.Legal

/-- R17: no step changes the Permutation but a reset edge and the execution of a CONSTRUCT that is accepted. -/
def Obligations.PermutationChangesOnlyByConstructOrReset : Prop :=
  ∀ s t : State, step s = .next t → t.perm ≠ s.perm →
    s.pinsNow.rst = true ∨
    (s.cmdPhase = .exec ∧ ∃ n seed rounds, decode s.ncur s.cmdData = .command (.construct n seed rounds) ∧
      n ≤ Config.nMax ∧ rounds ≠ 0)

/-- R29, R118, R122: without a reset no step clears STATUS.IIV, and a step that sets it completes a GET, INVERT or NEXT with INTERNAL_INVARIANT_VIOLATION. -/
def Obligations.IivIsStickyAndSetByWalksOnly : Prop :=
  ∀ s t : State, step s = .next t → s.pinsNow.rst = false →
    (s.iiv = true → t.iiv = true) ∧
    (s.iiv = false → t.iiv = true →
      t.cmdPhase = .resp ∧ t.response = { code := .internalInvariantViolation, value := 0 } ∧
      t.walkCount = s.walkCap ∧
      ∃ i, decode s.ncur s.cmdData = .command i ∧
        ((∃ x, i = .get x) ∨ (∃ x, i = .invert x) ∨ ∃ c, i = .next c))

/-- R32, R7: no step, not even a reset edge, writes WALK_CAP, changes the number of cursors, or changes the message encoding the machine is built with (ENC, whose
place in State is log 11's). -/
def Obligations.ConstantsHaveNoWriter : Prop :=
  ∀ s t : State, step s = .next t → t.walkCap = s.walkCap ∧ t.ncur = s.ncur ∧ t.encoding = s.encoding

/-- R61, R113, R20: every command of every state answers exactly one response, its code one of those the table gives the command (ILLEGAL_COMMAND only for a term whose
slot or register is not in the file), its value 0 whenever the code is not OK and for an OK CONSTRUCT, ITER or RANGE. -/
def Obligations.EveryCommandAnswersItsCodes : Prop :=
  ∀ (i : Instr) (s : State), ∃ t, exec i s = .next t ∧ t.cmdPhase = .resp ∧
    (t.response.code ≠ .ok → t.response.value = 0) ∧
    (t.response.code = .illegalCommand → i.wf s.ncur = false) ∧
    match i with
    | .construct _ _ _ => t.response.value = 0 ∧ (t.response.code = .ok ∨ t.response.code = .invalidDomain)
    | .get _ | .invert _ =>
      t.response.code = .ok ∨ t.response.code = .outOfRange ∨ t.response.code = .internalInvariantViolation
    | .iter _ => t.response.value = 0 ∧ (t.response.code = .ok ∨ t.response.code = .illegalCommand)
    | .range _ _ _ =>
      t.response.value = 0 ∧
        (t.response.code = .ok ∨ t.response.code = .invalidRange ∨ t.response.code = .illegalCommand)
    | .next _ =>
      t.response.code = .ok ∨ t.response.code = .endOfSequence ∨
        t.response.code = .internalInvariantViolation ∨ t.response.code = .illegalCommand
    | .readState _ => t.response.code = .ok ∨ t.response.code = .illegalCommand

/-! CONSTRUCT and the Parameter Deriver -/

/-- R74, R65, R66, R67: an accepted CONSTRUCT, the widths said by what they are: `b0` is the smallest width with `2^b0 ≥ n`. Every other register is unchanged.
That the latched record stays is log 13's choice. -/
def Obligations.ConstructLoadsThePermutation : Prop :=
  ∀ (n seed : Word) (rounds : Byte) (s : State), n ≤ Config.nMax → rounds ≠ 0 →
    ∃ (b0 : Nat) (p : Perm),
      exec (.construct n seed rounds) s = .next { s with
        perm := p
        cursors := List.replicate s.ncur { pos := 0, stop := 0 }
        cmdPhase := .resp
        response := { code := .ok, value := 0 }
        walking := false
        hashPhase := .hidle } ∧
      p.n = n ∧ p.seed = seed ∧ p.rounds = rounds ∧
      n.toNat ≤ 2 ^ b0 ∧ (∀ k, n.toNat ≤ 2 ^ k → b0 ≤ k) ∧
      p.b.toNat = b0 + b0 % 2 ∧ p.h.toNat = (b0 + b0 % 2) / 2 ∧
      p.halfMask.toNat = 2 ^ ((b0 + b0 % 2) / 2) - 1

/-- R71, R72, R117: a CONSTRUCT with `n > N_MAX` or a round count of 0 fails with INVALID_DOMAIN and changes nothing else; every other one, with `n = 0` or any round count from 1 to
255, answers (OK, 0).
That the latched record stays is log 13's choice. -/
def Obligations.ConstructRejectsBadDomain : Prop :=
  ∀ (n seed : Word) (rounds : Byte) (s : State),
    ((Config.nMax < n ∨ rounds = 0) →
      exec (.construct n seed rounds) s = .next { s with
        cmdPhase := .resp
        response := { code := .invalidDomain, value := 0 }
        walking := false
        hashPhase := .hidle }) ∧
    (n.toNat ≤ 2 ^ 63 → rounds ≠ 0 →
      ∃ t, exec (.construct n seed rounds) s = .next t ∧ t.response = { code := .ok, value := 0 })

/-- R73, R28: the empty domain. After CONSTRUCT with `n = 0`, which is accepted, GET and INVERT of every operand answer OUT_OF_RANGE, ITER is accepted and the first NEXT after it answers
END_OF_SEQUENCE, RANGE c, 0, 0 is accepted and the first NEXT after it answers END_OF_SEQUENCE, and every other RANGE answers INVALID_RANGE. -/
def Obligations.EmptyDomainPolicy : Prop :=
  ∀ (s : State) (seed : Word) (rounds : Byte), rounds ≠ 0 →
    ∃ t, exec (.construct 0 seed rounds) s = .next t ∧ t.response = { code := .ok, value := 0 } ∧
      (∀ x, responseTo (.get x) t.release = some { code := .outOfRange, value := 0 } ∧
        responseTo (.invert x) t.release = some { code := .outOfRange, value := 0 }) ∧
      ∀ c : Byte, c.toNat < s.ncur →
        (∃ t', exec (.iter c) t.release = .next t' ∧ t'.response = { code := .ok, value := 0 } ∧
          responseTo (.next c) t'.release = some { code := .endOfSequence, value := 0 }) ∧
        (∃ t', exec (.range c 0 0) t.release = .next t' ∧ t'.response = { code := .ok, value := 0 } ∧
          responseTo (.next c) t'.release = some { code := .endOfSequence, value := 0 }) ∧
        ∀ lo hi, ¬ (lo = 0 ∧ hi = 0) →
          responseTo (.range c lo hi) t.release = some { code := .invalidRange, value := 0 }

/-- R140: an accepted CONSTRUCT clears every cursor: a NEXT on any slot that follows it, the slot not opened again, answers END_OF_SEQUENCE. -/
def Obligations.StaleCursorsAreExhausted : Prop :=
  ∀ (n seed : Word) (rounds : Byte) (s t : State), exec (.construct n seed rounds) s = .next t →
    t.response.code = .ok → ∀ c : Byte, c.toNat < s.ncur →
      t.cursors[c.toNat]? = some { pos := 0, stop := 0 } ∧
      responseTo (.next c) t.release = some { code := .endOfSequence, value := 0 }

/-- R69: the geometry's bounds for every domain size CONSTRUCT accepts. -/
def Obligations.GeometryBounds : Prop :=
  ∀ n : Nat, n ≤ 2 ^ 63 →
    blockWidth n % 2 = 0 ∧ n ≤ 2 ^ blockWidth n ∧ (blockWidth n = 0 ↔ n ≤ 1) ∧
    (2 ≤ n → 2 ≤ blockWidth n ∧ 2 ^ blockWidth n < 4 * n) ∧
    blockWidth n ≤ 64 ∧ halfWidth n ≤ 32

/-! The Round Function and the Feistel Engine, for every hash and every encoding -/

/-- R79, R38, R62: the 24 message bytes of the default encoding, and that it is injective. -/
def Obligations.EncodingIsLittleEndianAndInjective : Prop :=
  ∀ (seed : Word) (r : Byte) (x : Half),
    messageBytes (enc seed r x) = le64 seed ++ le64 (r.setWidth 64) ++ le64 (x.setWidth 64) ∧
    ∀ (seed' : Word) (r' : Byte) (x' : Half), enc seed r x = enc seed' r' x' → seed = seed' ∧ r = r' ∧ x = x'

/-- R76, R77: F keeps the low `H` bits of the digest of the message of `(SEED, r, x)`. -/
def Obligations.RoundFunctionKeepsLowBits : Prop :=
  ∀ (u : HashPort) (p : Perm) (r : Byte) (x : Half), p.Legal →
    (roundF u p r x).toNat = (u.hash (u.enc p.seed r x)).toNat % 2 ^ p.h.toNat

/-- R81: every function with values of at most `H` bits is the round function of some hash, whichever encoding the machine is built with. -/
def Obligations.AnyRoundFunctionIsSomeHash : Prop :=
  ∀ (en : Encoding) (p : Perm) (G : Word → Byte → Half → Half), p.Legal → (∀ seed r x, G seed r x ≤ p.halfMask) →
    ∃ hash : Message → Word, ∀ seed r x, roundF { enc := en.enc, hash := hash } { p with seed := seed } r x = G seed r x

/-- R86: the halves of a block are its quotient and remainder by `2^H`, and halves that fit pack back to `L * 2^H + R`. -/
def Obligations.BlockHalvesAreQuotientAndRemainder : Prop :=
  ∀ (p : Perm), p.Legal →
    (∀ x : Word, x.toNat < 2 ^ p.b.toNat →
      (splitBlock p x).lh.toNat = x.toNat / 2 ^ p.h.toNat ∧
      (splitBlock p x).rh.toNat = x.toNat % 2 ^ p.h.toNat ∧
      packBlock p (splitBlock p x) = x) ∧
    (∀ l : Lanes, l.lh ≤ p.halfMask → l.rh ≤ p.halfMask →
      (packBlock p l).toNat = l.lh.toNat * 2 ^ p.h.toNat + l.rh.toNat)

/-- R87, R88: the round relations, and that encrypt and decrypt are their rounds in the order given, between the block's split and its packing. -/
def Obligations.RoundRelationsOfTheEngine : Prop :=
  ∀ (u : HashPort) (p : Perm) (l : Lanes) (r : Nat) (x : Word),
    roundForward u p r l = { lh := l.rh, rh := l.lh ^^^ roundF u p (BitVec.ofNat 8 r) l.rh } ∧
    roundBackward u p r l = { lh := l.rh ^^^ roundF u p (BitVec.ofNat 8 r) l.lh, rh := l.lh } ∧
    encrypt u p x =
      packBlock p ((List.range p.rounds.toNat).foldl (fun l r => roundForward u p r l) (splitBlock p x)) ∧
    decrypt u p x =
      packBlock p ((List.range p.rounds.toNat).reverse.foldl (fun l r => roundBackward u p r l) (splitBlock p x))

/-- R90: blocks stay below `2^B` and halves stay within the mask, after any number of rounds. -/
def Obligations.EngineStaysInRange : Prop :=
  ∀ (u : HashPort) (p : Perm) (x : Word), p.Legal → x.toNat < 2 ^ p.b.toNat →
    (encrypt u p x).toNat < 2 ^ p.b.toNat ∧ (decrypt u p x).toNat < 2 ^ p.b.toNat ∧
    ∀ r : Nat,
      (roundsForward u p r (splitBlock p x)).lh ≤ p.halfMask ∧
      (roundsForward u p r (splitBlock p x)).rh ≤ p.halfMask ∧
      (roundsBackward u p r (splitBlock p x)).lh ≤ p.halfMask ∧
      (roundsBackward u p r (splitBlock p x)).rh ≤ p.halfMask

/-- R91: for every hash, encoding, round count and block, decrypt and encrypt undo each other. -/
def Obligations.DecryptInvertsEncrypt : Prop :=
  ∀ (u : HashPort) (p : Perm) (x : Word), p.Legal → x.toNat < 2 ^ p.b.toNat →
    decrypt u p (encrypt u p x) = x ∧ encrypt u p (decrypt u p x) = x

/-- R92: the messages of one application, in order: round `r` forward carries the right half before it, round `r` backward the left half before it. -/
def Obligations.RoundMessagesInOrder : Prop :=
  ∀ (u : HashPort) (p : Perm) (x : Word),
    stepMessages u p .forward x =
      (List.range p.rounds.toNat).map (fun r =>
        u.enc p.seed (BitVec.ofNat 8 r) (roundsForward u p r (splitBlock p x)).rh) ∧
    stepMessages u p .inverse x =
      (List.range p.rounds.toNat).reverse.map (fun r =>
        u.enc p.seed (BitVec.ofNat 8 r)
          (((List.range p.rounds.toNat).drop (r + 1)).reverse.foldl (fun l q => roundBackward u p q l)
            (splitBlock p x)).lh)

/-! GET, INVERT and the Cycle Walker -/

/-- R103, R94, R97: GET of an index below N whose walk first returns to the domain after `j ≤ WALK_CAP` steps of encrypt answers that value; WALK_COUNT is `j`; the messages
are those of the `j` steps; nothing else changes. That the hidden walk datapath and request message stay too is log 5's choice.
That the latched record stays is log 13's choice. -/
def Obligations.GetAnswersTheFirstReturn : Prop :=
  ∀ (s : State) (i : Word) (j : Nat), s.perm.b ≠ 0 → i < s.perm.n → 1 ≤ j → j ≤ s.walkCap.toNat →
    (encrypt s.hashPort s.perm)^[j] i < s.perm.n →
    (∀ m, 1 ≤ m → m < j → s.perm.n ≤ (encrypt s.hashPort s.perm)^[m] i) →
    exec (.get i) s = .next { s with
      walkCount := BitVec.ofNat 64 j
      hashSent := s.hashSent ++ (List.range j).flatMap fun m =>
        stepMessages s.hashPort s.perm .forward ((encrypt s.hashPort s.perm)^[m] i)
      cmdPhase := .resp
      response := { code := .ok, value := (encrypt s.hashPort s.perm)^[j] i }
      walking := false
      hashPhase := .hidle }

/-- R104, R94, R97: INVERT likewise, with decrypt. That the hidden walk datapath and request message stay too is log 5's choice.
That the latched record stays is log 13's choice. -/
def Obligations.InvertAnswersTheFirstReturn : Prop :=
  ∀ (s : State) (i : Word) (j : Nat), s.perm.b ≠ 0 → i < s.perm.n → 1 ≤ j → j ≤ s.walkCap.toNat →
    (decrypt s.hashPort s.perm)^[j] i < s.perm.n →
    (∀ m, 1 ≤ m → m < j → s.perm.n ≤ (decrypt s.hashPort s.perm)^[m] i) →
    exec (.invert i) s = .next { s with
      walkCount := BitVec.ofNat 64 j
      hashSent := s.hashSent ++ (List.range j).flatMap fun m =>
        stepMessages s.hashPort s.perm .inverse ((decrypt s.hashPort s.perm)^[m] i)
      cmdPhase := .resp
      response := { code := .ok, value := (decrypt s.hashPort s.perm)^[j] i }
      walking := false
      hashPhase := .hidle }

/-- R95, R68: on a trivial Permutation GET and INVERT of an index below N, and NEXT at a position before its end, answer the operand itself with no walk step and no hash
transaction, and WALK_COUNT is 0.
That the latched record stays is log 13's choice. -/
def Obligations.TrivialWalkIsTheIdentity : Prop :=
  ∀ (s : State) (x : Word), s.perm.b = 0 →
    (x < s.perm.n →
      exec (.get x) s = .next { s with
        walkCount := 0
        cmdPhase := .resp
        response := { code := .ok, value := x }
        walking := false
        hashPhase := .hidle } ∧
      exec (.invert x) s = exec (.get x) s) ∧
    (∀ (c : Byte) (stop : Word), s.cursors[c.toNat]? = some { pos := x, stop := stop } → x < stop →
      exec (.next c) s = .next { s with
        walkCount := 0
        cursors := s.cursors.set c.toNat { pos := x + 1, stop := stop }
        cmdPhase := .resp
        response := { code := .ok, value := x }
        walking := false
        hashPhase := .hidle })

/-- R115: a GET or INVERT of an operand not below N answers OUT_OF_RANGE and changes nothing else; WALK_COUNT keeps its value.
That the latched record stays is log 13's choice. -/
def Obligations.QueriesOutOfRangeChangeNothing : Prop :=
  ∀ (s : State) (x : Word), s.perm.n ≤ x →
    exec (.get x) s = .next { s with
      cmdPhase := .resp
      response := { code := .outOfRange, value := 0 }
      walking := false
      hashPhase := .hidle } ∧
    exec (.invert x) s = exec (.get x) s

/-- R99: for every hash, a successful walk is retraced by the walk the other way, in as many steps. -/
def Obligations.InverseWalkRetracesTheWalk : Prop :=
  ∀ (u : HashPort) (p : Perm) (cap : Word) (i : Word), p.Legal → i < p.n →
    ((walk u p cap .forward i).code = .ok →
      (walk u p cap .inverse (walk u p cap .forward i).value).code = .ok ∧
      (walk u p cap .inverse (walk u p cap .forward i).value).value = i ∧
      (walk u p cap .inverse (walk u p cap .forward i).value).steps = (walk u p cap .forward i).steps) ∧
    ((walk u p cap .inverse i).code = .ok →
      (walk u p cap .forward (walk u p cap .inverse i).value).code = .ok ∧
      (walk u p cap .forward (walk u p cap .inverse i).value).value = i ∧
      (walk u p cap .forward (walk u p cap .inverse i).value).steps = (walk u p cap .inverse i).steps)

/-- R100: when `WALK_CAP ≥ 2^B − N + 1` no walk from an index below N reaches the cap, whatever the hash; no successful walk takes more than `2^B − N + 1` steps; and a cap of 512 is enough
for every `N ≤ 170`. -/
def Obligations.EnoughCapExcludesTheViolation : Prop :=
  ∀ (u : HashPort) (p : Perm) (cap : Word) (d : Direction) (x : Word), p.Legal → x < p.n →
    (2 ^ p.b.toNat - p.n.toNat + 1 ≤ cap.toNat → (walk u p cap d x).code = .ok) ∧
    ((walk u p cap d x).code = .ok → (walk u p cap d x).steps ≤ 2 ^ p.b.toNat - p.n.toNat + 1) ∧
    (p.n.toNat ≤ 170 → cap.toNat = 512 → (walk u p cap d x).code = .ok)

/-- R101: over the whole domain the walks' steps add up to at most `2^B`, and `2^B < 4N`, whatever the hash. -/
def Obligations.WalkStepsAddUpToTheBlockSpace : Prop :=
  ∀ (u : HashPort) (p : Perm) (cap : Word) (d : Direction), p.Legal → 1 ≤ p.n.toNat →
    ((Finset.range p.n.toNat).sum fun i => (walk u p cap d (BitVec.ofNat 64 i)).steps) ≤ 2 ^ p.b.toNat ∧
    2 ^ p.b.toNat < 4 * p.n.toNat

/-- R105: where every GET below N answers OK, GET is a bijection of `[0, N)` onto itself and INVERT is its inverse. -/
def Obligations.GetIsABijectionInvertedByInvert : Prop :=
  ∀ s : State, s.perm.Legal →
    (∀ i, i < s.perm.n → ∃ v, responseTo (.get i) s = some { code := .ok, value := v }) →
    (∀ i v, i < s.perm.n → responseTo (.get i) s = some { code := .ok, value := v } →
      v < s.perm.n ∧ responseTo (.invert v) s = some { code := .ok, value := i }) ∧
    (∀ v, v < s.perm.n → ∃ i, i < s.perm.n ∧ responseTo (.get i) s = some { code := .ok, value := v } ∧
      ∀ i', i' < s.perm.n → responseTo (.get i') s = some { code := .ok, value := v } → i' = i)

/-! ITER, RANGE and NEXT -/

/-- R106: ITER on a slot of the file sets that cursor to (0, N), answers (OK, 0), and changes nothing else.
That the latched record stays is log 13's choice. -/
def Obligations.IterOpensTheWholeDomain : Prop :=
  ∀ (c : Byte) (s : State), c.toNat < s.ncur →
    exec (.iter c) s = .next { s with
      cursors := s.cursors.set c.toNat { pos := 0, stop := s.perm.n }
      cmdPhase := .resp
      response := { code := .ok, value := 0 }
      walking := false
      hashPhase := .hidle }

/-- R107: RANGE on a slot of the file with `lo ≤ hi ≤ N` sets that cursor to (lo, hi), answers (OK, 0), and changes nothing else.
That the latched record stays is log 13's choice. -/
def Obligations.RangeOpensTheInterval : Prop :=
  ∀ (c : Byte) (lo hi : Word) (s : State), c.toNat < s.ncur → lo ≤ hi → hi ≤ s.perm.n →
    exec (.range c lo hi) s = .next { s with
      cursors := s.cursors.set c.toNat { pos := lo, stop := hi }
      cmdPhase := .resp
      response := { code := .ok, value := 0 }
      walking := false
      hashPhase := .hidle }

/-- R107, R116: RANGE with `lo > hi` or `hi > N` answers INVALID_RANGE and changes nothing else, the slot included.
That the latched record stays is log 13's choice. -/
def Obligations.RangeRejectsBadIntervals : Prop :=
  ∀ (c : Byte) (lo hi : Word) (s : State), c.toNat < s.ncur → (hi < lo ∨ s.perm.n < hi) →
    exec (.range c lo hi) s = .next { s with
      cmdPhase := .resp
      response := { code := .invalidRange, value := 0 }
      walking := false
      hashPhase := .hidle }

/-- R108, R20, R94: NEXT on a cursor before its end, whose walk first returns after `j ≤ WALK_CAP` steps, answers that value and advances the cursor by exactly 1. That
the hidden walk datapath and request message stay too is log 5's choice.
That the latched record stays is log 13's choice. -/
def Obligations.NextPullsAndAdvances : Prop :=
  ∀ (s : State) (c : Byte) (pos stop : Word) (j : Nat),
    s.cursors[c.toNat]? = some { pos := pos, stop := stop } → pos < stop → s.perm.b ≠ 0 →
    1 ≤ j → j ≤ s.walkCap.toNat → (encrypt s.hashPort s.perm)^[j] pos < s.perm.n →
    (∀ m, 1 ≤ m → m < j → s.perm.n ≤ (encrypt s.hashPort s.perm)^[m] pos) →
    exec (.next c) s = .next { s with
      walkCount := BitVec.ofNat 64 j
      hashSent := s.hashSent ++ (List.range j).flatMap fun m =>
        stepMessages s.hashPort s.perm .forward ((encrypt s.hashPort s.perm)^[m] pos)
      cursors := s.cursors.set c.toNat { pos := pos + 1, stop := stop }
      cmdPhase := .resp
      response := { code := .ok, value := (encrypt s.hashPort s.perm)^[j] pos }
      walking := false
      hashPhase := .hidle }

/-- R108, R119: NEXT on an exhausted cursor answers END_OF_SEQUENCE and changes nothing else.
That the latched record stays is log 13's choice. -/
def Obligations.NextAtTheEndChangesNothing : Prop :=
  ∀ (s : State) (c : Byte) (pos stop : Word),
    s.cursors[c.toNat]? = some { pos := pos, stop := stop } → stop ≤ pos →
    exec (.next c) s = .next { s with
      cmdPhase := .resp
      response := { code := .endOfSequence, value := 0 }
      walking := false
      hashPhase := .hidle }

/-- R96, R118: a GET or INVERT of an index below N, and a NEXT at a position before its end, whose walk stays outside the domain for WALK_CAP steps answer INTERNAL_INVARIANT_VIOLATION, set
STATUS.IIV, leave WALK_CAP in WALK_COUNT, have sent ROUNDS * WALK_CAP messages, and change nothing else: the NEXT does not advance its cursor. That the hidden
walk datapath and request message stay too is log 5's choice.
That the latched record stays is log 13's choice. -/
def Obligations.CappedWalksReportTheViolation : Prop :=
  ∀ (s : State) (x : Word), s.perm.b ≠ 0 →
    (x < s.perm.n → (∀ m, 1 ≤ m → m ≤ s.walkCap.toNat → s.perm.n ≤ (encrypt s.hashPort s.perm)^[m] x) →
      ∃ sent : List Message, sent.length = s.perm.rounds.toNat * s.walkCap.toNat ∧
        exec (.get x) s = .next { s with
          walkCount := s.walkCap
          status := s.status ||| 1
          hashSent := s.hashSent ++ sent
          cmdPhase := .resp
          response := { code := .internalInvariantViolation, value := 0 }
          walking := false
          hashPhase := .hidle }) ∧
    (x < s.perm.n → (∀ m, 1 ≤ m → m ≤ s.walkCap.toNat → s.perm.n ≤ (decrypt s.hashPort s.perm)^[m] x) →
      ∃ sent : List Message, sent.length = s.perm.rounds.toNat * s.walkCap.toNat ∧
        exec (.invert x) s = .next { s with
          walkCount := s.walkCap
          status := s.status ||| 1
          hashSent := s.hashSent ++ sent
          cmdPhase := .resp
          response := { code := .internalInvariantViolation, value := 0 }
          walking := false
          hashPhase := .hidle }) ∧
    ∀ (c : Byte) (stop : Word), s.cursors[c.toNat]? = some { pos := x, stop := stop } → x < stop →
      (∀ m, 1 ≤ m → m ≤ s.walkCap.toNat → s.perm.n ≤ (encrypt s.hashPort s.perm)^[m] x) →
      ∃ sent : List Message, sent.length = s.perm.rounds.toNat * s.walkCap.toNat ∧
        exec (.next c) s = .next { s with
          walkCount := s.walkCap
          status := s.status ||| 1
          hashSent := s.hashSent ++ sent
          cmdPhase := .resp
          response := { code := .internalInvariantViolation, value := 0 }
          walking := false
          hashPhase := .hidle }

/-- R57, R114: a command term whose slot or register is not in the cursor file completes with ILLEGAL_COMMAND and changes nothing else.
That the latched record stays is log 13's choice. -/
def Obligations.SlotsOutsideTheFileAreIllegal : Prop :=
  ∀ (s : State) (c : Byte) (lo hi : Word) (i : Instr), s.ncur ≤ c.toNat →
    (i = .iter c ∨ i = .range c lo hi ∨ i = .next c ∨ i = .readState (.curPos c) ∨ i = .readState (.curEnd c)) →
    exec i s = .next { s with
      cmdPhase := .resp
      response := { code := .illegalCommand, value := 0 }
      walking := false
      hashPhase := .hidle }

/-- R109: the responses of the NEXTs on a cursor at `pos` that is `count` elements or more before its end are those of GET `pos`, GET `pos + 1`, … in order, provided each of
these GETs answers OK. -/
def Obligations.NextsYieldTheGetsInOrder : Prop :=
  ∀ (s : State) (c : Byte) (pos stop : Word) (count : Nat), s.Legal →
    s.cursors[c.toNat]? = some { pos := pos, stop := stop } → pos.toNat + count ≤ stop.toNat →
    (∀ j, j < count → ∃ v, responseTo (.get (pos + BitVec.ofNat 64 j)) s = some { code := .ok, value := v }) →
    (pulls c count s).map some =
      (List.range count).map fun j => responseTo (.get (pos + BitVec.ofNat 64 j)) s

/-- R109, R110, R106: after ITER, where every GET below N answers OK, N NEXTs answer N distinct values below N, and one more NEXT answers END_OF_SEQUENCE. -/
def Obligations.IterationYieldsEveryElementOnce : Prop :=
  ∀ (s : State) (c : Byte), s.Legal → c.toNat < s.ncur →
    (∀ i, i < s.perm.n → ∃ v, responseTo (.get i) s = some { code := .ok, value := v }) →
    ∃ (t : State) (vs : List Word), exec (.iter c) s = .next t ∧
      pulls c (s.perm.n.toNat + 1) t.release =
        vs.map (fun v => { code := .ok, value := v }) ++ [{ code := .endOfSequence, value := 0 }] ∧
      vs.length = s.perm.n.toNat ∧ vs.Nodup ∧ ∀ v ∈ vs, v < s.perm.n

/-! READ_STATE -/

/-- R112, R16, R29, R32: READ_STATE of every mapped register answers its value zero-extended and changes nothing else.
That the latched record stays is log 13's choice. -/
def Obligations.ReadStateReturnsEachRegister : Prop :=
  ∀ (s : State) (reg : StateReg), reg.wf s.ncur = true →
    ∃ v : Word,
      exec (.readState reg) s = .next { s with
        cmdPhase := .resp
        response := { code := .ok, value := v }
        walking := false
        hashPhase := .hidle } ∧
      match reg with
      | .n => v = s.perm.n
      | .seed => v = s.perm.seed
      | .rounds => v.toNat = s.perm.rounds.toNat
      | .b => v.toNat = s.perm.b.toNat
      | .h => v.toNat = s.perm.h.toNat
      | .halfMask => v.toNat = s.perm.halfMask.toNat
      | .status => v = if s.iiv then 1 else 0
      | .walkCount => v = s.walkCount
      | .walkCap => v = s.walkCap
      | .ncur => v = BitVec.ofNat 64 s.cursors.length
      | .nMax => v.toNat = 2 ^ 63
      | .curPos c => ∃ cur, s.cursors[c.toNat]? = some cur ∧ v = cur.pos
      | .curEnd c => ∃ cur, s.cursors[c.toNat]? = some cur ∧ v = cur.stop

/-! Frames and whole-machine rules -/

/-- R42, R17, R31: what GET, INVERT and READ_STATE leave unchanged. There is no memory (R36). Two clauses are log 5's choice and no rule of the spec: that GET and INVERT
leave the walk datapath (`dp`) and the request message (`hashMsg`) as they were, which holds because with a hash unit that keeps its contract the model moves neither,
while R37 has a walk use both. The clauses on `hashUnit`, `io` and `encoding` are about the model's own fields (logs 5, 7 and 11).
That the latched record stays is log 13's choice. -/
def Obligations.QueryFrame : Prop :=
  ∀ (i : Instr) (s t : State), ((∃ x, i = .get x) ∨ (∃ x, i = .invert x) ∨ ∃ reg, i = .readState reg) →
    exec i s = .next t →
    t.perm = s.perm ∧ t.cursors = s.cursors ∧ t.walkCap = s.walkCap ∧
    (∀ k, 1 ≤ k → t.status.getLsbD k = s.status.getLsbD k) ∧
    t.cmdData = s.cmdData ∧ t.dp = s.dp ∧ t.hashMsg = s.hashMsg ∧ t.hashUnit = s.hashUnit ∧ t.io = s.io ∧
    t.encoding = s.encoding ∧
    ((∃ reg, i = .readState reg) → t.status = s.status ∧ t.walkCount = s.walkCount ∧ t.hashSent = s.hashSent)

/-- R42, R17, R31, R106: what ITER, RANGE and NEXT on slot `c` leave unchanged: every other cursor, the Permutation, and for ITER and RANGE the flag, the counter and the hash port
as well. Two clauses are log 5's choice and no rule of the spec: that NEXT leaves the walk datapath (`dp`) and the request message (`hashMsg`) as they were, which holds
because with a hash unit that keeps its contract the model moves neither, while R37 has a walk use both. The clauses on `hashUnit`, `io` and `encoding` are about the model's
own fields (logs 5, 7 and 11).
That the latched record stays is log 13's choice. -/
def Obligations.CursorFrame : Prop :=
  ∀ (i : Instr) (c : Byte) (s t : State), (i = .iter c ∨ (∃ lo hi, i = .range c lo hi) ∨ i = .next c) →
    exec i s = .next t →
    t.perm = s.perm ∧ t.walkCap = s.walkCap ∧ t.ncur = s.ncur ∧
    (∀ k : Nat, k ≠ c.toNat → t.cursors[k]? = s.cursors[k]?) ∧
    (∀ k, 1 ≤ k → t.status.getLsbD k = s.status.getLsbD k) ∧
    t.cmdData = s.cmdData ∧ t.dp = s.dp ∧ t.hashMsg = s.hashMsg ∧ t.hashUnit = s.hashUnit ∧ t.io = s.io ∧
    t.encoding = s.encoding ∧
    (i ≠ .next c → t.status = s.status ∧ t.walkCount = s.walkCount ∧ t.hashSent = s.hashSent) ∧
    (i = .next c → ∀ cur cur', s.cursors[c.toNat]? = some cur → t.cursors[c.toNat]? = some cur' → cur'.stop = cur.stop)

/-- R142, R97, R42: the hash transactions of a command: ROUNDS * WALK_COUNT for a GET, INVERT or NEXT that reached the walker, none for any other end. -/
def Obligations.HashTransactionsPerCommand : Prop :=
  ∀ (i : Instr) (s t : State), exec i s = .next t →
    ∃ sent : List Message, t.hashSent = s.hashSent ++ sent ∧
      match i with
      | .get _ | .invert _ | .next _ =>
        if t.response.code = .ok ∨ t.response.code = .internalInvariantViolation then
          sent.length = s.perm.rounds.toNat * t.walkCount.toNat ∧ t.walkCount ≤ s.walkCap
        else sent = [] ∧ t.walkCount = s.walkCount
      | .construct _ _ _ | .iter _ | .range _ _ _ | .readState _ => sent = [] ∧ t.walkCount = s.walkCount

/-- 10 R33, R37, 20 R45, 90 C8: the response and the effect on the Permutation and the cursors of every command but READ_STATE are functions of the Permutation, the cursors,
WALK_CAP and ENC: STATUS, WALK_COUNT, the earlier response, the hidden registers and the traffic so far do not reach them. -/
def Obligations.ResultsIgnoreObservationAndHiddenState : Prop :=
  ∀ (i : Instr) (s s' t t' : State), (∀ reg, i ≠ .readState reg) →
    s.perm = s'.perm → s.cursors = s'.cursors → s.walkCap = s'.walkCap → s.encoding = s'.encoding →
    exec i s = .next t → exec i s' = .next t' →
    t.response = t'.response ∧ t.perm = t'.perm ∧ t.cursors = t'.cursors

/-! The hash port, edge by edge -/

/-- R82, R84: with the hash unit on its pins, the phases of a transaction during a walk: the message is offered, transferred when the unit is ready, and its digest awaited;
while the unit's pin is 0 nothing changes. -/
def Obligations.HashTransactionPhases : Prop :=
  ∀ (s : State) (i : Instr) (d : Direction) (x0 : Word), s.hashUnit = .pins → s.cmdPhase = .exec →
    s.pinsNow.rst = false → s.walking = true → decode s.ncur s.cmdData = .command i →
    s.walkRequest i = some (d, x0) →
    (s.hashPhase = .hidle →
      step s = .next { s with
        hashPhase := .hreq
        hashMsg := s.hashPort.enc s.perm.seed s.dp.r (match d with | .forward => s.dp.lanes.rh | .inverse => s.dp.lanes.lh)
        io := s.io.tail }) ∧
    (s.hashPhase = .hreq →
      step s = .next (if s.pinsNow.hashReqReady then
        { s with hashPhase := .hwait, hashSent := s.hashSent ++ [s.hashMsg], io := s.io.tail }
        else { s with io := s.io.tail })) ∧
    (s.hashPhase = .hwait → s.pinsNow.hashRspValid = false → step s = .next { s with io := s.io.tail }) ∧
    (s.hashPhase = .hwait → s.pinsNow.hashRspValid = true →
      ∃ t, step s = .next t ∧ t.hashPhase = .hidle ∧ t.hashSent = s.hashSent)

/-- R83: outside HWAIT the digest pins are not looked at. -/
def Obligations.UnsolicitedDigestIsIgnored : Prop :=
  ∀ (s : State) (e : PortIn) (rest : List PortIn) (valid : Bool) (data : Word), s.hashPhase ≠ .hwait →
    step { s with io := { e with hashRspValid := valid, hashRspData := data } :: rest } =
      step { s with io := e :: rest }

/-- R84, 93 I4: a hash unit that never accepts the request, or never answers it, leaves the command executing for as long as no reset comes: no step changes anything but the input samples
used up, no command is taken and no response is offered. -/
def Obligations.SilentHashUnitStallsTheCommand : Prop :=
  ∀ (s : State) (i : Instr) (d : Direction) (x0 : Word) (k : Nat), s.hashUnit = .pins → s.cmdPhase = .exec →
    s.walking = true → decode s.ncur s.cmdData = .command i → s.walkRequest i = some (d, x0) →
    (∀ e ∈ s.io, e.rst = false) →
    (s.hashPhase = .hwait ∧ (∀ e ∈ s.io, e.hashRspValid = false) ∨
      s.hashPhase = .hreq ∧ ∀ e ∈ s.io, e.hashReqReady = false) →
    Host.Core.run core k s = .next { s with io := s.io.drop k } ∧
    ({ s with io := s.io.drop k }.outputs false).cmdReady = false ∧
    ({ s with io := s.io.drop k }.outputs false).rsp = none

/-- 93 I3, R138: whatever digests the hash unit returns, a walk that ends without a reset answers a value below N with WALK_COUNT in 1 … WALK_CAP, or the violation with its effects, and
writes the Permutation not at all. -/
def Obligations.AnyDigestsGiveALawfulAnswer : Prop :=
  ∀ s t : State, s.Legal → s.hashUnit = .pins → s.walking = true → s.pinsNow.rst = false → step s = .next t →
    t.cmdPhase = .resp →
    t.perm = s.perm ∧
    ((t.response.code = .ok ∧ t.response.value < s.perm.n ∧ 1 ≤ t.walkCount.toNat ∧ t.walkCount ≤ s.walkCap ∧
        t.status = s.status) ∨
      (t.response = { code := .internalInvariantViolation, value := 0 } ∧ t.walkCount = s.walkCap ∧
        t.status = s.status ||| 1 ∧ t.cursors = s.cursors))

/-- R80, R82, R92, R94, R136: the walk run edge by edge through the hash port computes exec. From a legal state whose command has just been latched, with the hash unit on its pins
returning the hash of each message after any delays, the response phase is only ever reached in a state whose visible part is that of exec's next state. -/
def Obligations.PortWalkRefinesExec : Prop :=
  ∀ (s t : State) (i : Instr) (n : Nat), s.Legal → s.hashUnit = .pins → s.cmdPhase = .exec → s.walking = false →
    decode s.ncur s.cmdData = .command i → Served Config.hash n s t → t.cmdPhase = .resp →
    ∃ v, exec i s = .next v ∧ t.visible = v.visible

/-- R84, R139: every latched command can reach its response: there are input samples that keep the hash unit's contract and lead there. It says that some such samples exist,
not that every hash unit that keeps its contract does this. The bound, one edge and three edges a round of every walk step, is the model's edge schedule, log 4, and no rule of
the spec: R142 gives no cycle counts. -/
def Obligations.PromptHashUnitCompletesEveryCommand : Prop :=
  ∀ (s : State) (i : Instr), s.Legal → s.hashUnit = .pins → s.cmdPhase = .exec → s.walking = false →
    decode s.ncur s.cmdData = .command i →
    ∃ (es : List PortIn) (n : Nat) (t : State), Served Config.hash n { s with io := es } t ∧ t.cmdPhase = .resp ∧
      n ≤ 1 + 3 * s.perm.rounds.toNat * s.walkCap.toNat

/-! What lies outside PRS-CORE -/

/-- R134, and logs 5, 6 and 7 (the model's own fields): no step, not even a reset edge, changes the hash unit or takes back a message already sent, and every step uses up one input
sample. -/
def Obligations.SurroundingsAreNotWritten : Prop :=
  ∀ s t : State, step s = .next t →
    t.hashUnit = s.hashUnit ∧ t.io = s.io.tail ∧ ∃ sent : List Message, t.hashSent = s.hashSent ++ sent

/-! The message encoding as a parameter of the machine -/

/-- R79, R7, 93 I2: whichever encoding the machine is built with, distinct (seed, r, x) give distinct messages, and with the default the 24 message bytes are the
little-endian ones. How a substituted encoding is held is log 11's choice, and it leaves none out: every injective function from (seed, r, x) to 24-byte strings is the
default encoding followed by some permutation of the strings. -/
def Obligations.EncodingParameterIsAnyInjectiveEncoding : Prop :=
  (∀ (s : State) (seed : Word) (r : Byte) (x : Half),
    (∀ (seed' : Word) (r' : Byte) (x' : Half), s.hashPort.enc seed r x = s.hashPort.enc seed' r' x' →
      seed = seed' ∧ r = r' ∧ x = x') ∧
    (s.encoding = .littleEndian →
      messageBytes (s.hashPort.enc seed r x) = le64 seed ++ le64 (r.setWidth 64) ++ le64 (x.setWidth 64))) ∧
  ∀ en : Enc,
    (∀ (seed seed' : Word) (r r' : Byte) (x x' : Half), en seed r x = en seed' r' x' → seed = seed' ∧ r = r' ∧ x = x') →
    ∃ π : Equiv.Perm Message, ∀ (seed : Word) (r : Byte) (x : Half), en seed r x = π (enc seed r x)
end

