-- ==== Sys2Proof/Laws/Decode.lean ====
section
/-! SUPPORT. The fields of an assembled record, and the state index map read back. -/

namespace Sys2Proof

/-- Every bit of an assembled record (R53). -/
theorem getLsbD_assemble (op idx rnd : Byte) (a bop : Word) (i : Nat) :
    (assemble op idx rnd a bop).getLsbD i =
      if i < 8 then op.getLsbD i else if i < 16 then idx.getLsbD (i - 8)
      else if i < 24 then rnd.getLsbD (i - 16) else if i < 32 then false
      else if i < 96 then a.getLsbD (i - 32) else bop.getLsbD (i - 96) := by
  change (bop ++ a ++ (0 : Byte) ++ rnd ++ idx ++ op : BitVec (64 + 64 + 8 + 8 + 8 + 8)).getLsbD i = _
  simp only [BitVec.getLsbD_append, Nat.sub_sub]
  repeat' split
  all_goals first | rfl | omega | simp

theorem fieldOp_assemble (op idx rnd : Byte) (a bop : Word) :
    fieldOp (assemble op idx rnd a bop) = op := by
  ext i hi
  rw [fieldOp, BitVec.getElem_extractLsb', getLsbD_assemble]
  simp [hi]

theorem fieldIdx_assemble (op idx rnd : Byte) (a bop : Word) :
    fieldIdx (assemble op idx rnd a bop) = idx := by
  ext i hi
  rw [fieldIdx, BitVec.getElem_extractLsb', getLsbD_assemble, if_neg (by omega), if_pos (by omega),
    Nat.add_sub_cancel_left, BitVec.getLsbD_eq_getElem hi]

theorem fieldRnd_assemble (op idx rnd : Byte) (a bop : Word) :
    fieldRnd (assemble op idx rnd a bop) = rnd := by
  ext i hi
  rw [fieldRnd, BitVec.getElem_extractLsb', getLsbD_assemble, if_neg (by omega), if_neg (by omega),
    if_pos (by omega), Nat.add_sub_cancel_left, BitVec.getLsbD_eq_getElem hi]

theorem fieldRsvd_assemble (op idx rnd : Byte) (a bop : Word) :
    fieldRsvd (assemble op idx rnd a bop) = 0 := by
  ext i hi
  rw [fieldRsvd, BitVec.getElem_extractLsb', getLsbD_assemble, if_neg (by omega), if_neg (by omega),
    if_neg (by omega), if_pos (by omega)]
  simp

theorem fieldA_assemble (op idx rnd : Byte) (a bop : Word) :
    fieldA (assemble op idx rnd a bop) = a := by
  ext i hi
  rw [fieldA, BitVec.getElem_extractLsb', getLsbD_assemble, if_neg (by omega), if_neg (by omega),
    if_neg (by omega), if_neg (by omega), if_pos (by omega), Nat.add_sub_cancel_left,
    BitVec.getLsbD_eq_getElem hi]

theorem fieldBop_assemble (op idx rnd : Byte) (a bop : Word) :
    fieldBop (assemble op idx rnd a bop) = bop := by
  ext i hi
  rw [fieldBop, BitVec.getElem_extractLsb', getLsbD_assemble, if_neg (by omega), if_neg (by omega),
    if_neg (by omega), if_neg (by omega), if_neg (by omega), Nat.add_sub_cancel_left,
    BitVec.getLsbD_eq_getElem hi]

/-- The index map above the fixed registers (R111). -/
theorem stateRegAt_cursor (ncur : Nat) (s : Byte) (h : 0x10 ≤ s.toNat) :
    stateRegAt ncur s =
      if (s.toNat - 0x10) / 2 < ncur then
        if (s.toNat - 0x10) % 2 = 0 then some (.curPos (BitVec.ofNat 8 ((s.toNat - 0x10) / 2)))
        else some (.curEnd (BitVec.ofNat 8 ((s.toNat - 0x10) / 2)))
      else none := by
  unfold stateRegAt
  split <;> first | omega | simp [h]

/-- No register stands at indices 0x0B to 0x0F (R111). -/
theorem stateRegAt_gap (ncur : Nat) (s : Byte) (h₁ : 0x0A < s.toNat) (h₂ : s.toNat < 0x10) :
    stateRegAt ncur s = none := by
  unfold stateRegAt
  split <;> first | omega | rw [if_neg (by omega)]

theorem toNat_stateIndexOf_curPos (c : Byte) (h : c.toNat < Config.ncurMax) :
    (stateIndexOf (.curPos c)).toNat = 0x10 + 2 * c.toNat := by
  have h' : c.toNat < 120 := h
  simp only [stateIndexOf, BitVec.toNat_add, BitVec.toNat_mul, BitVec.reduceToNat]
  omega

theorem toNat_stateIndexOf_curEnd (c : Byte) (h : c.toNat < Config.ncurMax) :
    (stateIndexOf (.curEnd c)).toNat = 0x11 + 2 * c.toNat := by
  have h' : c.toNat < 120 := h
  simp only [stateIndexOf, BitVec.toNat_add, BitVec.toNat_mul, BitVec.reduceToNat]
  omega

/-- The index of a mapped register selects it (R111). -/
theorem stateRegAt_stateIndexOf (ncur : Nat) (reg : StateReg) (h : reg.wf ncur = true) :
    stateRegAt ncur (stateIndexOf reg) = some reg := by
  cases reg with
  | curPos c =>
    simp only [StateReg.wf, Bool.and_eq_true, decide_eq_true_eq] at h
    have e := toNat_stateIndexOf_curPos c h.2
    have d : (0x10 + 2 * c.toNat - 0x10) / 2 = c.toNat := by omega
    rw [stateRegAt_cursor _ _ (by omega), e, d, if_pos h.1, if_pos (by omega), BitVec.ofNat_toNat,
      BitVec.setWidth_eq]
  | curEnd c =>
    simp only [StateReg.wf, Bool.and_eq_true, decide_eq_true_eq] at h
    have e := toNat_stateIndexOf_curEnd c h.2
    have d : (0x11 + 2 * c.toNat - 0x10) / 2 = c.toNat := by omega
    rw [stateRegAt_cursor _ _ (by omega), e, d, if_pos h.1, if_neg (by omega), BitVec.ofNat_toNat,
      BitVec.setWidth_eq]
  | _ => rfl

/-- A mapped index is the index of the register it selects, and that register is well formed (R111). -/
theorem stateRegAt_eq_some {ncur : Nat} {s : Byte} {reg : StateReg} (h : stateRegAt ncur s = some reg) :
    stateIndexOf reg = s ∧ reg.wf ncur = true := by
  have hs := s.isLt
  by_cases h10 : 0x10 ≤ s.toNat
  · rw [stateRegAt_cursor ncur s h10] at h
    split at h
    · have c : (BitVec.ofNat 8 ((s.toNat - 0x10) / 2)).toNat = (s.toNat - 0x10) / 2 := by
        rw [BitVec.toNat_ofNat]; omega
      have m : (BitVec.ofNat 8 ((s.toNat - 0x10) / 2)).toNat < Config.ncurMax := by
        rw [c]; change _ < 120; omega
      split at h <;> cases h
      · refine ⟨BitVec.eq_of_toNat_eq ?_, ?_⟩
        · rw [toNat_stateIndexOf_curPos _ m, c]; omega
        · simp only [StateReg.wf, Bool.and_eq_true, decide_eq_true_eq]; exact ⟨by omega, m⟩
      · refine ⟨BitVec.eq_of_toNat_eq ?_, ?_⟩
        · rw [toNat_stateIndexOf_curEnd _ m, c]; omega
        · simp only [StateReg.wf, Bool.and_eq_true, decide_eq_true_eq]; exact ⟨by omega, m⟩
    · cases h
  · by_cases h0 : 0x0A < s.toNat
    · rw [stateRegAt_gap ncur s h0 (by omega)] at h; cases h
    · have e : s = BitVec.ofNat 8 s.toNat := by simp
      generalize s.toNat = k at *
      subst e
      interval_cases k <;> cases h <;> exact ⟨rfl, rfl⟩

/-- The header is its four fields (R53). -/
theorem header_eq (w : Record) :
    w.extractLsb' 0 32 = (fieldRsvd w ++ fieldRnd w ++ fieldIdx w ++ fieldOp w : BitVec (8 + 8 + 8 + 8)) := by
  refine BitVec.eq_of_getLsbD_eq fun i hi => ?_
  simp only [BitVec.getLsbD_append, fieldRsvd, fieldRnd, fieldIdx, fieldOp, BitVec.getLsbD_extractLsb', hi]
  repeat' split
  all_goals simp only [decide_true, Bool.true_and, *]
  all_goals first | rfl | (congr 1; omega) | (rw [decide_eq_true (by omega)]; simp only [Bool.true_and]; congr 1; omega)

theorem header_assemble (op idx rnd : Byte) (a bop : Word) :
    (assemble op idx rnd a bop).extractLsb' 0 32 = ((0 : Byte) ++ rnd ++ idx ++ op : BitVec (8 + 8 + 8 + 8)) := by
  rw [header_eq, fieldOp_assemble, fieldIdx_assemble, fieldRnd_assemble, fieldRsvd_assemble]

/-- The unmapped indices (R111). -/
theorem stateRegAt_eq_none_iff (ncur : Nat) (s : Byte) :
    stateRegAt ncur s = none ↔ ¬ (s.toNat ≤ 0x0A ∨ 0x10 ≤ s.toNat ∧ (s.toNat - 0x10) / 2 < ncur) := by
  by_cases h : 0x10 ≤ s.toNat
  · rw [stateRegAt_cursor ncur s h]
    split
    · have : ¬ ((if (s.toNat - 0x10) % 2 = 0 then some (StateReg.curPos (BitVec.ofNat 8 ((s.toNat - 0x10) / 2)))
          else some (.curEnd (BitVec.ofNat 8 ((s.toNat - 0x10) / 2)))) = none) := by split <;> simp
      simp only [this, false_iff, not_not]; omega
    · simp only [true_iff]; omega
  · by_cases h0 : 0x0A < s.toNat
    · rw [stateRegAt_gap ncur s h0 (by omega)]; simp only [true_iff]; omega
    · have e : s = BitVec.ofNat 8 s.toNat := by simp
      generalize s.toNat = k at *
      subst e
      interval_cases k <;> simp [stateRegAt]

end Sys2Proof
end

