-- ==== Sys2Proof/Laws/State.lean ====
section
/-! SUPPORT. One lemma per field per update, true by rfl, so that no later proof unfolds a record update; and the small facts about the cursor file. -/

namespace Sys2Proof.Machine

section Fields

@[simp] theorem State.respond_perm (code : Code) (v : Word) (s : State) : (s.respond code v).perm = s.perm := rfl
@[simp] theorem State.respond_status (code : Code) (v : Word) (s : State) : (s.respond code v).status = s.status := rfl
@[simp] theorem State.respond_walkCount (code : Code) (v : Word) (s : State) : (s.respond code v).walkCount = s.walkCount := rfl
@[simp] theorem State.respond_walkCap (code : Code) (v : Word) (s : State) : (s.respond code v).walkCap = s.walkCap := rfl
@[simp] theorem State.respond_encoding (code : Code) (v : Word) (s : State) : (s.respond code v).encoding = s.encoding := rfl
@[simp] theorem State.respond_cursors (code : Code) (v : Word) (s : State) : (s.respond code v).cursors = s.cursors := rfl
@[simp] theorem State.respond_cmdPhase (code : Code) (v : Word) (s : State) : (s.respond code v).cmdPhase = .resp := rfl
@[simp] theorem State.respond_cmdData (code : Code) (v : Word) (s : State) : (s.respond code v).cmdData = s.cmdData := rfl
@[simp] theorem State.respond_walking (code : Code) (v : Word) (s : State) : (s.respond code v).walking = false := rfl
@[simp] theorem State.respond_dp (code : Code) (v : Word) (s : State) : (s.respond code v).dp = s.dp := rfl
@[simp] theorem State.respond_hashPhase (code : Code) (v : Word) (s : State) : (s.respond code v).hashPhase = .hidle := rfl
@[simp] theorem State.respond_hashMsg (code : Code) (v : Word) (s : State) : (s.respond code v).hashMsg = s.hashMsg := rfl
@[simp] theorem State.respond_response (code : Code) (v : Word) (s : State) : (s.respond code v).response = { code := code, value := v } := rfl
@[simp] theorem State.respond_hashUnit (code : Code) (v : Word) (s : State) : (s.respond code v).hashUnit = s.hashUnit := rfl
@[simp] theorem State.respond_hashSent (code : Code) (v : Word) (s : State) : (s.respond code v).hashSent = s.hashSent := rfl
@[simp] theorem State.respond_io (code : Code) (v : Word) (s : State) : (s.respond code v).io = s.io := rfl

@[simp] theorem State.setCursor_perm (c : Byte) (cur : Cursor) (s : State) : (s.setCursor c cur).perm = s.perm := rfl
@[simp] theorem State.setCursor_status (c : Byte) (cur : Cursor) (s : State) : (s.setCursor c cur).status = s.status := rfl
@[simp] theorem State.setCursor_walkCount (c : Byte) (cur : Cursor) (s : State) : (s.setCursor c cur).walkCount = s.walkCount := rfl
@[simp] theorem State.setCursor_walkCap (c : Byte) (cur : Cursor) (s : State) : (s.setCursor c cur).walkCap = s.walkCap := rfl
@[simp] theorem State.setCursor_encoding (c : Byte) (cur : Cursor) (s : State) : (s.setCursor c cur).encoding = s.encoding := rfl
@[simp] theorem State.setCursor_cursors (c : Byte) (cur : Cursor) (s : State) : (s.setCursor c cur).cursors = s.cursors.set c.toNat cur := rfl
@[simp] theorem State.setCursor_cmdPhase (c : Byte) (cur : Cursor) (s : State) : (s.setCursor c cur).cmdPhase = s.cmdPhase := rfl
@[simp] theorem State.setCursor_cmdData (c : Byte) (cur : Cursor) (s : State) : (s.setCursor c cur).cmdData = s.cmdData := rfl
@[simp] theorem State.setCursor_walking (c : Byte) (cur : Cursor) (s : State) : (s.setCursor c cur).walking = s.walking := rfl
@[simp] theorem State.setCursor_dp (c : Byte) (cur : Cursor) (s : State) : (s.setCursor c cur).dp = s.dp := rfl
@[simp] theorem State.setCursor_hashPhase (c : Byte) (cur : Cursor) (s : State) : (s.setCursor c cur).hashPhase = s.hashPhase := rfl
@[simp] theorem State.setCursor_hashMsg (c : Byte) (cur : Cursor) (s : State) : (s.setCursor c cur).hashMsg = s.hashMsg := rfl
@[simp] theorem State.setCursor_response (c : Byte) (cur : Cursor) (s : State) : (s.setCursor c cur).response = s.response := rfl
@[simp] theorem State.setCursor_hashUnit (c : Byte) (cur : Cursor) (s : State) : (s.setCursor c cur).hashUnit = s.hashUnit := rfl
@[simp] theorem State.setCursor_hashSent (c : Byte) (cur : Cursor) (s : State) : (s.setCursor c cur).hashSent = s.hashSent := rfl
@[simp] theorem State.setCursor_io (c : Byte) (cur : Cursor) (s : State) : (s.setCursor c cur).io = s.io := rfl

@[simp] theorem State.clearCursors_perm (s : State) : (s.clearCursors).perm = s.perm := rfl
@[simp] theorem State.clearCursors_status (s : State) : (s.clearCursors).status = s.status := rfl
@[simp] theorem State.clearCursors_walkCount (s : State) : (s.clearCursors).walkCount = s.walkCount := rfl
@[simp] theorem State.clearCursors_walkCap (s : State) : (s.clearCursors).walkCap = s.walkCap := rfl
@[simp] theorem State.clearCursors_encoding (s : State) : (s.clearCursors).encoding = s.encoding := rfl
@[simp] theorem State.clearCursors_cursors (s : State) : (s.clearCursors).cursors = s.cursors.map fun _ => { pos := 0, stop := 0 } := rfl
@[simp] theorem State.clearCursors_cmdPhase (s : State) : (s.clearCursors).cmdPhase = s.cmdPhase := rfl
@[simp] theorem State.clearCursors_cmdData (s : State) : (s.clearCursors).cmdData = s.cmdData := rfl
@[simp] theorem State.clearCursors_walking (s : State) : (s.clearCursors).walking = s.walking := rfl
@[simp] theorem State.clearCursors_dp (s : State) : (s.clearCursors).dp = s.dp := rfl
@[simp] theorem State.clearCursors_hashPhase (s : State) : (s.clearCursors).hashPhase = s.hashPhase := rfl
@[simp] theorem State.clearCursors_hashMsg (s : State) : (s.clearCursors).hashMsg = s.hashMsg := rfl
@[simp] theorem State.clearCursors_response (s : State) : (s.clearCursors).response = s.response := rfl
@[simp] theorem State.clearCursors_hashUnit (s : State) : (s.clearCursors).hashUnit = s.hashUnit := rfl
@[simp] theorem State.clearCursors_hashSent (s : State) : (s.clearCursors).hashSent = s.hashSent := rfl
@[simp] theorem State.clearCursors_io (s : State) : (s.clearCursors).io = s.io := rfl

@[simp] theorem State.recordWalk_perm (w : WalkResult) (s : State) : (s.recordWalk w).perm = s.perm := rfl
@[simp] theorem State.recordWalk_status (w : WalkResult) (s : State) : (s.recordWalk w).status = if w.code = .internalInvariantViolation then s.status ||| 1 else s.status := rfl
@[simp] theorem State.recordWalk_walkCount (w : WalkResult) (s : State) : (s.recordWalk w).walkCount = BitVec.ofNat 64 w.steps := rfl
@[simp] theorem State.recordWalk_walkCap (w : WalkResult) (s : State) : (s.recordWalk w).walkCap = s.walkCap := rfl
@[simp] theorem State.recordWalk_encoding (w : WalkResult) (s : State) : (s.recordWalk w).encoding = s.encoding := rfl
@[simp] theorem State.recordWalk_cursors (w : WalkResult) (s : State) : (s.recordWalk w).cursors = s.cursors := rfl
@[simp] theorem State.recordWalk_cmdPhase (w : WalkResult) (s : State) : (s.recordWalk w).cmdPhase = s.cmdPhase := rfl
@[simp] theorem State.recordWalk_cmdData (w : WalkResult) (s : State) : (s.recordWalk w).cmdData = s.cmdData := rfl
@[simp] theorem State.recordWalk_walking (w : WalkResult) (s : State) : (s.recordWalk w).walking = s.walking := rfl
@[simp] theorem State.recordWalk_dp (w : WalkResult) (s : State) : (s.recordWalk w).dp = s.dp := rfl
@[simp] theorem State.recordWalk_hashPhase (w : WalkResult) (s : State) : (s.recordWalk w).hashPhase = s.hashPhase := rfl
@[simp] theorem State.recordWalk_hashMsg (w : WalkResult) (s : State) : (s.recordWalk w).hashMsg = s.hashMsg := rfl
@[simp] theorem State.recordWalk_response (w : WalkResult) (s : State) : (s.recordWalk w).response = s.response := rfl
@[simp] theorem State.recordWalk_hashUnit (w : WalkResult) (s : State) : (s.recordWalk w).hashUnit = s.hashUnit := rfl
@[simp] theorem State.recordWalk_hashSent (w : WalkResult) (s : State) : (s.recordWalk w).hashSent = s.hashSent ++ w.sent := rfl
@[simp] theorem State.recordWalk_io (w : WalkResult) (s : State) : (s.recordWalk w).io = s.io := rfl

@[simp] theorem State.tick_perm (s : State) : (s.tick).perm = s.perm := rfl
@[simp] theorem State.tick_status (s : State) : (s.tick).status = s.status := rfl
@[simp] theorem State.tick_walkCount (s : State) : (s.tick).walkCount = s.walkCount := rfl
@[simp] theorem State.tick_walkCap (s : State) : (s.tick).walkCap = s.walkCap := rfl
@[simp] theorem State.tick_encoding (s : State) : (s.tick).encoding = s.encoding := rfl
@[simp] theorem State.tick_cursors (s : State) : (s.tick).cursors = s.cursors := rfl
@[simp] theorem State.tick_cmdPhase (s : State) : (s.tick).cmdPhase = s.cmdPhase := rfl
@[simp] theorem State.tick_cmdData (s : State) : (s.tick).cmdData = s.cmdData := rfl
@[simp] theorem State.tick_walking (s : State) : (s.tick).walking = s.walking := rfl
@[simp] theorem State.tick_dp (s : State) : (s.tick).dp = s.dp := rfl
@[simp] theorem State.tick_hashPhase (s : State) : (s.tick).hashPhase = s.hashPhase := rfl
@[simp] theorem State.tick_hashMsg (s : State) : (s.tick).hashMsg = s.hashMsg := rfl
@[simp] theorem State.tick_response (s : State) : (s.tick).response = s.response := rfl
@[simp] theorem State.tick_hashUnit (s : State) : (s.tick).hashUnit = s.hashUnit := rfl
@[simp] theorem State.tick_hashSent (s : State) : (s.tick).hashSent = s.hashSent := rfl
@[simp] theorem State.tick_io (s : State) : (s.tick).io = s.io.tail := rfl

@[simp] theorem State.accept_perm (w : Record) (s : State) : (s.accept w).perm = s.perm := rfl
@[simp] theorem State.accept_status (w : Record) (s : State) : (s.accept w).status = s.status := rfl
@[simp] theorem State.accept_walkCount (w : Record) (s : State) : (s.accept w).walkCount = s.walkCount := rfl
@[simp] theorem State.accept_walkCap (w : Record) (s : State) : (s.accept w).walkCap = s.walkCap := rfl
@[simp] theorem State.accept_encoding (w : Record) (s : State) : (s.accept w).encoding = s.encoding := rfl
@[simp] theorem State.accept_cursors (w : Record) (s : State) : (s.accept w).cursors = s.cursors := rfl
@[simp] theorem State.accept_cmdPhase (w : Record) (s : State) : (s.accept w).cmdPhase = .exec := rfl
@[simp] theorem State.accept_cmdData (w : Record) (s : State) : (s.accept w).cmdData = w := rfl
@[simp] theorem State.accept_walking (w : Record) (s : State) : (s.accept w).walking = false := rfl
@[simp] theorem State.accept_dp (w : Record) (s : State) : (s.accept w).dp = s.dp := rfl
@[simp] theorem State.accept_hashPhase (w : Record) (s : State) : (s.accept w).hashPhase = s.hashPhase := rfl
@[simp] theorem State.accept_hashMsg (w : Record) (s : State) : (s.accept w).hashMsg = s.hashMsg := rfl
@[simp] theorem State.accept_response (w : Record) (s : State) : (s.accept w).response = s.response := rfl
@[simp] theorem State.accept_hashUnit (w : Record) (s : State) : (s.accept w).hashUnit = s.hashUnit := rfl
@[simp] theorem State.accept_hashSent (w : Record) (s : State) : (s.accept w).hashSent = s.hashSent := rfl
@[simp] theorem State.accept_io (w : Record) (s : State) : (s.accept w).io = s.io := rfl

@[simp] theorem State.release_perm (s : State) : (s.release).perm = s.perm := rfl
@[simp] theorem State.release_status (s : State) : (s.release).status = s.status := rfl
@[simp] theorem State.release_walkCount (s : State) : (s.release).walkCount = s.walkCount := rfl
@[simp] theorem State.release_walkCap (s : State) : (s.release).walkCap = s.walkCap := rfl
@[simp] theorem State.release_encoding (s : State) : (s.release).encoding = s.encoding := rfl
@[simp] theorem State.release_cursors (s : State) : (s.release).cursors = s.cursors := rfl
@[simp] theorem State.release_cmdPhase (s : State) : (s.release).cmdPhase = .idle := rfl
@[simp] theorem State.release_cmdData (s : State) : (s.release).cmdData = s.cmdData := rfl
@[simp] theorem State.release_walking (s : State) : (s.release).walking = s.walking := rfl
@[simp] theorem State.release_dp (s : State) : (s.release).dp = s.dp := rfl
@[simp] theorem State.release_hashPhase (s : State) : (s.release).hashPhase = s.hashPhase := rfl
@[simp] theorem State.release_hashMsg (s : State) : (s.release).hashMsg = s.hashMsg := rfl
@[simp] theorem State.release_response (s : State) : (s.release).response = s.response := rfl
@[simp] theorem State.release_hashUnit (s : State) : (s.release).hashUnit = s.hashUnit := rfl
@[simp] theorem State.release_hashSent (s : State) : (s.release).hashSent = s.hashSent := rfl
@[simp] theorem State.release_io (s : State) : (s.release).io = s.io := rfl

@[simp] theorem State.resetEdge_perm (s : State) : (s.resetEdge).perm = { n := 0, seed := 0, rounds := 4, b := 0, h := 0, halfMask := 0 } := rfl
@[simp] theorem State.resetEdge_status (s : State) : (s.resetEdge).status = 0 := rfl
@[simp] theorem State.resetEdge_walkCount (s : State) : (s.resetEdge).walkCount = 0 := rfl
@[simp] theorem State.resetEdge_walkCap (s : State) : (s.resetEdge).walkCap = s.walkCap := rfl
@[simp] theorem State.resetEdge_encoding (s : State) : (s.resetEdge).encoding = s.encoding := rfl
@[simp] theorem State.resetEdge_cursors (s : State) : (s.resetEdge).cursors = List.replicate s.ncur { pos := 0, stop := 0 } := rfl
@[simp] theorem State.resetEdge_cmdPhase (s : State) : (s.resetEdge).cmdPhase = .idle := rfl
@[simp] theorem State.resetEdge_cmdData (s : State) : (s.resetEdge).cmdData = 0 := rfl
@[simp] theorem State.resetEdge_walking (s : State) : (s.resetEdge).walking = false := rfl
@[simp] theorem State.resetEdge_dp (s : State) : (s.resetEdge).dp = { x := 0, k := 0, r := 0, lanes := { lh := 0, rh := 0 } } := rfl
@[simp] theorem State.resetEdge_hashPhase (s : State) : (s.resetEdge).hashPhase = .hidle := rfl
@[simp] theorem State.resetEdge_hashMsg (s : State) : (s.resetEdge).hashMsg = 0 := rfl
@[simp] theorem State.resetEdge_response (s : State) : (s.resetEdge).response = { code := .ok, value := 0 } := rfl
@[simp] theorem State.resetEdge_hashUnit (s : State) : (s.resetEdge).hashUnit = s.hashUnit := rfl
@[simp] theorem State.resetEdge_hashSent (s : State) : (s.resetEdge).hashSent = s.hashSent := rfl
@[simp] theorem State.resetEdge_io (s : State) : (s.resetEdge).io = s.io := rfl

end Fields

/-- The hash port is a function of the encoding alone. -/
theorem State.hashPort_congr {s t : State} (h : t.encoding = s.encoding) : t.hashPort = s.hashPort := by
  unfold State.hashPort; rw [h]

@[simp] theorem State.hashPort_tick (s : State) : s.tick.hashPort = s.hashPort := rfl

@[simp] theorem State.raise_eq (code : Code) (s : State) : s.raise code = s.respond code 0 := rfl

@[simp] theorem State.ncur_respond (code : Code) (v : Word) (s : State) : (s.respond code v).ncur = s.ncur := rfl

@[simp] theorem State.ncur_setCursor (c : Byte) (cur : Cursor) (s : State) : (s.setCursor c cur).ncur = s.ncur :=
  List.length_set

@[simp] theorem State.ncur_clearCursors (s : State) : s.clearCursors.ncur = s.ncur := List.length_map _

@[simp] theorem State.ncur_recordWalk (w : WalkResult) (s : State) : (s.recordWalk w).ncur = s.ncur := rfl

@[simp] theorem State.ncur_tick (s : State) : s.tick.ncur = s.ncur := rfl

@[simp] theorem State.ncur_accept (w : Record) (s : State) : (s.accept w).ncur = s.ncur := rfl

@[simp] theorem State.ncur_release (s : State) : s.release.ncur = s.ncur := rfl

@[simp] theorem State.ncur_resetEdge (s : State) : s.resetEdge.ncur = s.ncur := List.length_replicate

/-- A slot below NCUR has its cursor, one that is not has none (R34). -/
theorem State.cursor?_of_lt {s : State} {c : Byte} (h : c.toNat < s.ncur) :
    s.cursor? c = some (s.cursors[c.toNat]'h) := List.getElem?_eq_getElem h

theorem State.cursor?_eq_none {s : State} {c : Byte} (h : ¬ c.toNat < s.ncur) : s.cursor? c = none :=
  List.getElem?_eq_none (Nat.le_of_not_lt h)

theorem State.lt_of_cursor? {s : State} {c : Byte} {cur : Cursor} (h : s.cursor? c = some cur) :
    c.toNat < s.ncur := by
  by_contra hn
  rw [State.cursor?_eq_none hn] at h
  cases h

theorem State.mem_of_cursor? {s : State} {c : Byte} {cur : Cursor} (h : s.cursor? c = some cur) :
    cur ∈ s.cursors := List.mem_of_getElem? h

/-- Cursor `c` after it is written (R34). -/
theorem State.cursor?_setCursor_self {s : State} {c : Byte} {cur : Cursor} (h : c.toNat < s.ncur) :
    (s.setCursor c cur).cursor? c = some cur := by
  unfold State.cursor?
  rw [State.setCursor_cursors, List.getElem?_set_self (by exact h)]

/-- Writing one cursor leaves every other as it was (45 R106). -/
theorem State.cursor?_setCursor_ne {s : State} {c c' : Byte} {cur : Cursor} (h : c' ≠ c) :
    (s.setCursor c cur).cursor? c' = s.cursor? c' := by
  unfold State.cursor?
  rw [State.setCursor_cursors, List.getElem?_set_ne]
  exact fun e => h (BitVec.eq_of_toNat_eq e.symm)

end Sys2Proof.Machine
end

