-- ==== Sys2Proof/Laws/Geometry.lean ====
section
/-! SUPPORT. The Parameter Deriver's arithmetic (40_parameter_deriver.md R65-R69), and what a legal Permutation's geometry registers hold. -/

namespace Sys2Proof.Machine

theorem unroundedWidth_of_le {n : Nat} (h : n ≤ 1) : unroundedWidth n = 0 := if_pos h

theorem unroundedWidth_of_two_le {n : Nat} (h : 2 ≤ n) : unroundedWidth n = (n - 1).log2 + 1 := by
  rw [unroundedWidth, if_neg (by omega), bitlen, if_neg (by omega)]

/-- `n ≤ 2^b0` (R65). -/
theorem le_two_pow_unroundedWidth (n : Nat) : n ≤ 2 ^ unroundedWidth n := by
  by_cases h : n ≤ 1
  · rw [unroundedWidth_of_le h]; omega
  · rw [unroundedWidth_of_two_le (by omega)]
    have := (Nat.log2_lt (n := n - 1) (k := (n - 1).log2 + 1) (by omega)).1 (by omega)
    omega

/-- `2^b0 < 2n` (R69). -/
theorem two_pow_unroundedWidth_lt {n : Nat} (h : 2 ≤ n) : 2 ^ unroundedWidth n < 2 * n := by
  rw [unroundedWidth_of_two_le h, Nat.pow_succ]
  have := Nat.log2_self_le (n := n - 1) (by omega)
  omega

/-- `b0` is the smallest width (R65). -/
theorem unroundedWidth_le_of_le_two_pow {n k : Nat} (h : n ≤ 2 ^ k) : unroundedWidth n ≤ k := by
  by_cases h1 : n ≤ 1
  · rw [unroundedWidth_of_le h1]; omega
  · rw [unroundedWidth_of_two_le (by omega)]
    have := (Nat.log2_lt (n := n - 1) (k := k) (by omega)).2 (by omega)
    omega

theorem unroundedWidth_le_blockWidth (n : Nat) : unroundedWidth n ≤ blockWidth n := Nat.le_add_right _ _

theorem blockWidth_eq_two_mul (n : Nat) : blockWidth n = 2 * halfWidth n := by
  unfold halfWidth blockWidth; omega

theorem le_two_pow_blockWidth (n : Nat) : n ≤ 2 ^ blockWidth n :=
  (le_two_pow_unroundedWidth n).trans (Nat.pow_le_pow_right (by omega) (unroundedWidth_le_blockWidth n))

theorem blockWidth_eq_zero_iff (n : Nat) : blockWidth n = 0 ↔ n ≤ 1 := by
  constructor
  · intro h
    have := le_two_pow_blockWidth n
    rw [h] at this
    omega
  · intro h
    rw [blockWidth, unroundedWidth_of_le h]

theorem two_pow_blockWidth_lt {n : Nat} (h : 2 ≤ n) : 2 ^ blockWidth n < 4 * n := by
  have h1 := two_pow_unroundedWidth_lt h
  have h2 : 2 ^ blockWidth n ≤ 2 ^ (unroundedWidth n + 1) :=
    Nat.pow_le_pow_right (by omega) (by unfold blockWidth; omega)
  rw [Nat.pow_succ] at h2
  omega

theorem blockWidth_le {n : Nat} (h : n ≤ 2 ^ 63) : blockWidth n ≤ 64 := by
  have := unroundedWidth_le_of_le_two_pow h
  unfold blockWidth; omega

theorem halfWidth_le {n : Nat} (h : n ≤ 2 ^ 63) : halfWidth n ≤ 32 := by
  have := blockWidth_le h
  unfold halfWidth; omega

theorem toNat_nMax : Config.nMax.toNat = 2 ^ 63 := rfl

/-- What the geometry registers of a legal Permutation hold, as naturals (R66, R67, R69). -/
theorem Perm.Legal.geometry_toNat {p : Perm} (hp : p.Legal) :
    p.b.toNat = blockWidth p.n.toNat ∧ p.h.toNat = halfWidth p.n.toNat ∧
      p.halfMask.toNat = 2 ^ halfWidth p.n.toNat - 1 ∧ p.n.toNat ≤ 2 ^ 63 := by
  have hn : p.n.toNat ≤ 2 ^ 63 := by
    have := BitVec.le_def.1 hp.n_le
    rwa [toNat_nMax] at this
  have hb := blockWidth_le hn
  have hh := halfWidth_le hn
  have hm : 2 ^ halfWidth p.n.toNat ≤ 2 ^ 32 := Nat.pow_le_pow_right (by omega) hh
  have hg := hp.geometry
  refine ⟨?_, ?_, ?_, hn⟩
  · have := congrArg (fun q => q.b.toNat) hg
    simp only [permOf, BitVec.toNat_ofNat] at this
    omega
  · have := congrArg (fun q => q.h.toNat) hg
    simp only [permOf, BitVec.toNat_ofNat] at this
    omega
  · have := congrArg (fun q => q.halfMask.toNat) hg
    simp only [permOf, halfMaskOf, BitVec.toNat_ofNat] at this
    omega

/-- `H ≤ 32`, `B = 2H`, `HALF_MASK = 2^H − 1`, `N ≤ 2^B` (R69). -/
theorem Perm.Legal.bounds {p : Perm} (hp : p.Legal) :
    p.h.toNat ≤ 32 ∧ p.b.toNat = 2 * p.h.toNat ∧ p.halfMask.toNat = 2 ^ p.h.toNat - 1 ∧
      p.n.toNat ≤ 2 ^ p.b.toNat := by
  obtain ⟨hb, hh, hm, hn⟩ := hp.geometry_toNat
  rw [hb, hh, hm]
  exact ⟨halfWidth_le hn, blockWidth_eq_two_mul _, rfl, le_two_pow_blockWidth _⟩

/-- The Permutation is trivial exactly for `N ≤ 1` (R68). -/
theorem Perm.Legal.b_eq_zero_iff {p : Perm} (hp : p.Legal) : p.b = 0 ↔ p.n.toNat ≤ 1 := by
  rw [← blockWidth_eq_zero_iff, ← hp.geometry_toNat.1]
  constructor
  · intro h; rw [h]; rfl
  · intro h; exact BitVec.eq_of_toNat_eq h

/-- What CONSTRUCT loads is legal (R71, R72, R74). -/
theorem permOf_legal {n seed : Word} {rounds : Byte} (hn : n ≤ Config.nMax) (hr : rounds ≠ 0) :
    (permOf n seed rounds).Legal :=
  ⟨hn, hr, rfl⟩

end Sys2Proof.Machine
end

