-- ==== Sys2Proof/Laws/Feistel.lean ====
section
/-! SUPPORT. The Feistel Engine (42_feistel_engine.md): the block layout in naturals, ranges, and rounds undone by rounds. -/

namespace Sys2Proof.Machine

/-- Halves that fit the mask (R90). -/
def LanesFit (p : Perm) (l : Lanes) : Prop := l.lh ≤ p.halfMask ∧ l.rh ≤ p.halfMask

theorem toNat_lt_of_le_mask {p : Perm} (hp : p.Legal) {v : Half} (h : v ≤ p.halfMask) :
    v.toNat < 2 ^ p.h.toNat := by
  have h1 := BitVec.le_def.1 h
  have h2 := hp.bounds.2.2.1
  have h3 : 0 < 2 ^ p.h.toNat := by positivity
  omega

theorem le_mask_of_toNat_lt {p : Perm} (hp : p.Legal) {v : Half} (h : v.toNat < 2 ^ p.h.toNat) :
    v ≤ p.halfMask := by
  have h2 := hp.bounds.2.2.1
  exact BitVec.le_def.2 (by omega)

/-- Masking a half keeps its low `H` bits. -/
theorem toNat_and_mask {p : Perm} (hp : p.Legal) (v : Half) :
    (v &&& p.halfMask).toNat = v.toNat % 2 ^ p.h.toNat := by
  rw [BitVec.toNat_and, hp.bounds.2.2.1, Nat.and_two_pow_sub_one_eq_mod]

/-- `F` reduces a digest to its low `H` bits (41_round_function.md R77). -/
theorem toNat_reduceDigest {p : Perm} (hp : p.Legal) (d : Word) :
    (reduceDigest p d).toNat = d.toNat % 2 ^ p.h.toNat := by
  obtain ⟨h1, -, h3, -⟩ := hp.bounds
  have h4 : 2 ^ p.h.toNat ≤ 2 ^ 32 := Nat.pow_le_pow_right (by omega) h1
  have h5 : 0 < 2 ^ p.h.toNat := by positivity
  have h6 : d.toNat % 2 ^ p.h.toNat < 2 ^ p.h.toNat := Nat.mod_lt _ h5
  rw [reduceDigest, BitVec.toNat_setWidth, BitVec.toNat_and, BitVec.toNat_setWidth, h3,
    Nat.mod_eq_of_lt (b := 2 ^ 64) (by omega), Nat.and_two_pow_sub_one_eq_mod, Nat.mod_eq_of_lt (by omega)]

theorem reduceDigest_le {p : Perm} (hp : p.Legal) (d : Word) : reduceDigest p d ≤ p.halfMask := by
  refine le_mask_of_toNat_lt hp ?_
  rw [toNat_reduceDigest hp]
  exact Nat.mod_lt _ (by positivity)

theorem xor_le_mask {p : Perm} (hp : p.Legal) {v w : Half} (hv : v ≤ p.halfMask) (hw : w ≤ p.halfMask) :
    v ^^^ w ≤ p.halfMask := by
  refine le_mask_of_toNat_lt hp ?_
  rw [BitVec.toNat_xor]
  exact Nat.xor_lt_two_pow (toNat_lt_of_le_mask hp hv) (toNat_lt_of_le_mask hp hw)

/-- The halves of a split block, as naturals (R86). -/
theorem toNat_splitBlock {p : Perm} (hp : p.Legal) (x : Word) (hx : x.toNat < 2 ^ p.b.toNat) :
    (splitBlock p x).lh.toNat = x.toNat / 2 ^ p.h.toNat ∧
      (splitBlock p x).rh.toNat = x.toNat % 2 ^ p.h.toNat := by
  obtain ⟨h1, h2, h3, -⟩ := hp.bounds
  have h4 : 2 ^ p.h.toNat ≤ 2 ^ 32 := Nat.pow_le_pow_right (by omega) h1
  rw [h2, Nat.two_mul, Nat.pow_add] at hx
  have h5 : x.toNat / 2 ^ p.h.toNat < 2 ^ p.h.toNat := Nat.div_lt_of_lt_mul hx
  constructor
  · rw [splitBlock, BitVec.toNat_setWidth, BitVec.toNat_ushiftRight, Nat.shiftRight_eq_div_pow,
      Nat.mod_eq_of_lt (by omega)]
  · simp only [splitBlock]
    rw [toNat_and_mask hp, BitVec.toNat_setWidth, Nat.mod_mod_of_dvd]
    exact Nat.pow_dvd_pow 2 h1

theorem splitBlock_fit {p : Perm} (hp : p.Legal) (x : Word) (hx : x.toNat < 2 ^ p.b.toNat) :
    LanesFit p (splitBlock p x) := by
  obtain ⟨h1, h2⟩ := toNat_splitBlock hp x hx
  rw [hp.bounds.2.1, Nat.two_mul, Nat.pow_add] at hx
  refine ⟨le_mask_of_toNat_lt hp ?_, le_mask_of_toNat_lt hp ?_⟩
  · rw [h1]; exact Nat.div_lt_of_lt_mul hx
  · rw [h2]; exact Nat.mod_lt _ (by positivity)

/-- The block two fitting halves make, as a natural (R86). -/
theorem toNat_packBlock {p : Perm} (hp : p.Legal) {l : Lanes} (hl : LanesFit p l) :
    (packBlock p l).toNat = l.lh.toNat * 2 ^ p.h.toNat + l.rh.toNat := by
  obtain ⟨h1, -, -, -⟩ := hp.bounds
  have hL := toNat_lt_of_le_mask hp hl.1
  have hR := toNat_lt_of_le_mask hp hl.2
  have h4 : 2 ^ p.h.toNat ≤ 2 ^ 32 := Nat.pow_le_pow_right (by omega) h1
  have h5 : l.lh.toNat * 2 ^ p.h.toNat < 2 ^ 64 := by
    calc l.lh.toNat * 2 ^ p.h.toNat < 2 ^ p.h.toNat * 2 ^ p.h.toNat :=
          Nat.mul_lt_mul_of_pos_right hL (by positivity)
      _ ≤ 2 ^ 32 * 2 ^ 32 := Nat.mul_le_mul h4 h4
      _ = 2 ^ 64 := by norm_num
  have h6 := l.lh.isLt
  have h7 := l.rh.isLt
  rw [packBlock, BitVec.toNat_or, BitVec.toNat_shiftLeft, BitVec.toNat_setWidth, BitVec.toNat_setWidth,
    Nat.mod_eq_of_lt (a := l.lh.toNat) (by omega), Nat.mod_eq_of_lt (a := l.rh.toNat) (by omega),
    Nat.shiftLeft_eq, Nat.mod_eq_of_lt h5, Nat.mul_comm, ← Nat.two_pow_add_eq_or_of_lt hR]

theorem packBlock_lt {p : Perm} (hp : p.Legal) {l : Lanes} (hl : LanesFit p l) :
    (packBlock p l).toNat < 2 ^ p.b.toNat := by
  have hL := toNat_lt_of_le_mask hp hl.1
  have hR := toNat_lt_of_le_mask hp hl.2
  rw [toNat_packBlock hp hl, hp.bounds.2.1, Nat.two_mul, Nat.pow_add]
  calc l.lh.toNat * 2 ^ p.h.toNat + l.rh.toNat < l.lh.toNat * 2 ^ p.h.toNat + 2 ^ p.h.toNat := by omega
    _ = (l.lh.toNat + 1) * 2 ^ p.h.toNat := by ring
    _ ≤ 2 ^ p.h.toNat * 2 ^ p.h.toNat := Nat.mul_le_mul_right _ hL

theorem splitBlock_packBlock {p : Perm} (hp : p.Legal) {l : Lanes} (hl : LanesFit p l) :
    splitBlock p (packBlock p l) = l := by
  obtain ⟨h1, h2⟩ := toNat_splitBlock hp _ (packBlock_lt hp hl)
  have hR := toNat_lt_of_le_mask hp hl.2
  have h5 : 0 < 2 ^ p.h.toNat := by positivity
  rw [toNat_packBlock hp hl] at h1 h2
  rw [Nat.mul_comm, Nat.mul_add_div h5, Nat.div_eq_of_lt hR, Nat.add_zero] at h1
  rw [Nat.mul_comm, Nat.mul_add_mod, Nat.mod_eq_of_lt hR] at h2
  have e1 := BitVec.eq_of_toNat_eq h1
  have e2 := BitVec.eq_of_toNat_eq h2
  cases l
  simp only at e1 e2
  generalize splitBlock p _ = q at *
  cases q
  simp_all

theorem packBlock_splitBlock {p : Perm} (hp : p.Legal) {x : Word} (hx : x.toNat < 2 ^ p.b.toNat) :
    packBlock p (splitBlock p x) = x := by
  obtain ⟨h1, h2⟩ := toNat_splitBlock hp x hx
  refine BitVec.eq_of_toNat_eq ?_
  rw [toNat_packBlock hp (splitBlock_fit hp x hx), h1, h2, Nat.div_add_mod']

theorem roundForward_fit (u : HashPort) {p : Perm} (hp : p.Legal) (r : Nat) {l : Lanes} (hl : LanesFit p l) :
    LanesFit p (roundForward u p r l) :=
  ⟨hl.2, xor_le_mask hp hl.1 (reduceDigest_le hp _)⟩

theorem roundBackward_fit (u : HashPort) {p : Perm} (hp : p.Legal) (r : Nat) {l : Lanes} (hl : LanesFit p l) :
    LanesFit p (roundBackward u p r l) :=
  ⟨xor_le_mask hp hl.2 (reduceDigest_le hp _), hl.1⟩

theorem roundsForward_fit (u : HashPort) {p : Perm} (hp : p.Legal) (count : Nat) {l : Lanes}
    (hl : LanesFit p l) : LanesFit p (roundsForward u p count l) := by
  induction count with
  | zero => exact hl
  | succ count ih => exact roundForward_fit u hp count ih

theorem roundsBackward_fit (u : HashPort) {p : Perm} (hp : p.Legal) (count : Nat) {l : Lanes}
    (hl : LanesFit p l) : LanesFit p (roundsBackward u p count l) := by
  induction count generalizing l with
  | zero => exact hl
  | succ count ih => exact ih (roundBackward_fit u hp count hl)

/-- A backward round undoes the forward round of its index, whatever the hash. -/
theorem roundBackward_roundForward (u : HashPort) (p : Perm) (r : Nat) (l : Lanes) :
    roundBackward u p r (roundForward u p r l) = l := by
  cases l
  simp [roundBackward, roundForward, mixBackward, mixForward]

theorem roundForward_roundBackward (u : HashPort) (p : Perm) (r : Nat) (l : Lanes) :
    roundForward u p r (roundBackward u p r l) = l := by
  cases l
  simp [roundBackward, roundForward, mixBackward, mixForward]

theorem roundsBackward_roundsForward (u : HashPort) (p : Perm) (count : Nat) (l : Lanes) :
    roundsBackward u p count (roundsForward u p count l) = l := by
  induction count with
  | zero => rfl
  | succ count ih => rw [roundsForward, roundsBackward, roundBackward_roundForward, ih]

theorem roundsForward_roundsBackward (u : HashPort) (p : Perm) (count : Nat) (l : Lanes) :
    roundsForward u p count (roundsBackward u p count l) = l := by
  induction count generalizing l with
  | zero => rfl
  | succ count ih => rw [roundsForward, roundsBackward, ih, roundForward_roundBackward]

theorem applyStep_lt (u : HashPort) {p : Perm} (hp : p.Legal) (d : Direction) {x : Word}
    (hx : x.toNat < 2 ^ p.b.toNat) : (applyStep u p d x).toNat < 2 ^ p.b.toNat := by
  cases d
  · exact packBlock_lt hp (roundsForward_fit u hp _ (splitBlock_fit hp x hx))
  · exact packBlock_lt hp (roundsBackward_fit u hp _ (splitBlock_fit hp x hx))

theorem length_messagesForward (u : HashPort) (p : Perm) (count : Nat) (l : Lanes) :
    (messagesForward u p count l).length = count := by
  induction count with
  | zero => rfl
  | succ count ih => rw [messagesForward, List.length_append, ih]; rfl

theorem length_messagesBackward (u : HashPort) (p : Perm) (count : Nat) (l : Lanes) :
    (messagesBackward u p count l).length = count := by
  induction count generalizing l with
  | zero => rfl
  | succ count ih => rw [messagesBackward, List.length_cons, ih]

/-- One application sends one message a round (R92). -/
theorem length_stepMessages (u : HashPort) (p : Perm) (d : Direction) (x : Word) :
    (stepMessages u p d x).length = p.rounds.toNat := by
  cases d
  · exact length_messagesForward u p _ _
  · exact length_messagesBackward u p _ _

end Sys2Proof.Machine
end

