-- ==== Sys2Proof/Laws/Walker.lean ====
section
/-! SUPPORT. What a walk answers (43_cycle_walker.md R94-R98), in terms of the iterates of its step function. -/

namespace Sys2Proof.Machine

/-- The first return of a walk's step function to the domain: `j` steps lead from `x` to a value below `N`, no fewer do. -/
def FirstReturn (u : HashPort) (p : Perm) (d : Direction) (x : Word) (j : Nat) : Prop :=
  1 ≤ j ∧ (applyStep u p d)^[j] x < p.n ∧ ∀ i, 1 ≤ i → i < j → p.n ≤ (applyStep u p d)^[i] x

theorem not_lt_of_word_le {a b : Word} (h : a ≤ b) : ¬ b < a := by
  rw [BitVec.lt_def, BitVec.le_def] at *; omega

theorem word_le_of_not_lt {a b : Word} (h : ¬ b < a) : a ≤ b := by
  rw [BitVec.lt_def, BitVec.le_def] at *; omega

theorem walkLoop_of_firstReturn {u : HashPort} {p : Perm} {d : Direction} {x : Word} {j left : Nat} (k : Nat)
    (h : FirstReturn u p d x j) (hj : j ≤ left) :
    (walkLoop u p d left k x).code = .ok ∧ (walkLoop u p d left k x).value = (applyStep u p d)^[j] x ∧
      (walkLoop u p d left k x).steps = k + j := by
  induction left generalizing k x j with
  | zero => exact absurd h.1 (by omega)
  | succ left ih =>
    obtain ⟨h1, h2, h3⟩ := h
    obtain ⟨j, rfl⟩ : ∃ m, j = m + 1 := ⟨j - 1, by omega⟩
    rw [walkLoop]
    by_cases hj0 : j = 0
    · subst hj0
      have : applyStep u p d x < p.n := h2
      rw [if_pos this]
      exact ⟨rfl, rfl, rfl⟩
    · have hnot : ¬ applyStep u p d x < p.n := not_lt_of_word_le (h3 1 (le_refl _) (by omega))
      rw [if_neg hnot]
      have := ih (x := applyStep u p d x) (j := j) (k + 1)
        ⟨by omega, h2, fun i hi hij => h3 (i + 1) (by omega) (by omega)⟩ (by omega)
      refine ⟨this.1, this.2.1, ?_⟩
      rw [this.2.2]; omega

theorem walkLoop_of_capped {u : HashPort} {p : Perm} {d : Direction} {x : Word} {left : Nat} (k : Nat)
    (h : ∀ i, 1 ≤ i → i ≤ left → p.n ≤ (applyStep u p d)^[i] x) :
    (walkLoop u p d left k x).code = .internalInvariantViolation ∧ (walkLoop u p d left k x).value = 0 ∧
      (walkLoop u p d left k x).steps = k + left := by
  induction left generalizing k x with
  | zero => exact ⟨rfl, rfl, rfl⟩
  | succ left ih =>
    have hnot : ¬ applyStep u p d x < p.n := not_lt_of_word_le (h 1 (le_refl _) (by omega))
    rw [walkLoop, if_neg hnot]
    have := ih (x := applyStep u p d x) (k + 1) (fun i hi hil => h (i + 1) (by omega) (by omega))
    refine ⟨this.1, this.2.1, ?_⟩
    rw [this.2.2]; omega

/-- A walk of at most `left` steps either returns to the domain within them or does not. -/
theorem firstReturn_or_capped (u : HashPort) (p : Perm) (d : Direction) (x : Word) (left : Nat) :
    (∃ j, j ≤ left ∧ FirstReturn u p d x j) ∨ ∀ i, 1 ≤ i → i ≤ left → p.n ≤ (applyStep u p d)^[i] x := by
  induction left with
  | zero => exact .inr fun i h1 h2 => absurd h1 (by omega)
  | succ left ih =>
    rcases ih with ⟨j, hj, h⟩ | h
    · exact .inl ⟨j, by omega, h⟩
    · by_cases hlt : (applyStep u p d)^[left + 1] x < p.n
      · exact .inl ⟨left + 1, le_refl _, by omega, hlt, fun i h1 h2 => h i h1 (by omega)⟩
      · refine .inr fun i h1 h2 => ?_
        by_cases hi : i = left + 1
        · subst hi; exact word_le_of_not_lt hlt
        · exact h i h1 (by omega)

/-- A walk sends ROUNDS messages a step (R97). -/
theorem length_walkLoop_sent (u : HashPort) (p : Perm) (d : Direction) (left k : Nat) (x : Word) :
    k ≤ (walkLoop u p d left k x).steps ∧
      (walkLoop u p d left k x).sent.length = p.rounds.toNat * ((walkLoop u p d left k x).steps - k) := by
  induction left generalizing k x with
  | zero => simp [walkLoop]
  | succ left ih =>
    rw [walkLoop]
    split
    · simp [length_stepMessages]
    · obtain ⟨h1, h2⟩ := ih (k + 1) (applyStep u p d x)
      refine ⟨by simpa using (by omega : k ≤ _), ?_⟩
      simp only [List.length_append, length_stepMessages, h2]
      obtain ⟨m, hm⟩ : ∃ m, (walkLoop u p d left (k + 1) (applyStep u p d x)).steps = k + 1 + m :=
        ⟨_, (Nat.add_sub_of_le h1).symm⟩
      rw [hm, Nat.add_sub_cancel_left, show k + 1 + m - k = m + 1 by omega]
      ring

/-- The messages of a walk are those of its steps, in order (R92, R97). -/
theorem walkLoop_sent (u : HashPort) (p : Perm) (d : Direction) (left k : Nat) (x : Word) :
    (walkLoop u p d left k x).sent =
      (List.range ((walkLoop u p d left k x).steps - k)).flatMap fun m =>
        stepMessages u p d ((applyStep u p d)^[m] x) := by
  induction left generalizing k x with
  | zero => simp [walkLoop]
  | succ left ih =>
    rw [walkLoop]
    split
    · simp
    · have h1 := (length_walkLoop_sent u p d left (k + 1) (applyStep u p d x)).1
      obtain ⟨m, hm⟩ : ∃ m, (walkLoop u p d left (k + 1) (applyStep u p d x)).steps = k + 1 + m :=
        ⟨_, (Nat.add_sub_of_le h1).symm⟩
      simp only [ih]
      rw [hm, Nat.add_sub_cancel_left, show k + 1 + m - k = m + 1 by omega, List.range_succ_eq_map,
        List.flatMap_cons, List.flatMap_map]
      rfl

theorem walk_sent (u : HashPort) (p : Perm) (cap : Word) (d : Direction) (x : Word) :
    (walk u p cap d x).sent =
      (List.range (walk u p cap d x).steps).flatMap fun m => stepMessages u p d ((applyStep u p d)^[m] x) := by
  rw [walk]
  split
  · rfl
  · exact walkLoop_sent u p d cap.toNat 0 x

/-- Everything a walk can answer (R94-R98): its start value on a trivial Permutation; its first return; or the violation after WALK_CAP steps. -/
theorem walk_cases (u : HashPort) (p : Perm) (cap : Word) (d : Direction) (x : Word) :
    (p.b = 0 ∧ walk u p cap d x = { code := .ok, value := x, steps := 0, sent := [] }) ∨
    (p.b ≠ 0 ∧ ∃ j, j ≤ cap.toNat ∧ FirstReturn u p d x j ∧ (walk u p cap d x).code = .ok ∧
      (walk u p cap d x).value = (applyStep u p d)^[j] x ∧ (walk u p cap d x).steps = j) ∨
    (p.b ≠ 0 ∧ (∀ i, 1 ≤ i → i ≤ cap.toNat → p.n ≤ (applyStep u p d)^[i] x) ∧
      (walk u p cap d x).code = .internalInvariantViolation ∧ (walk u p cap d x).value = 0 ∧
      (walk u p cap d x).steps = cap.toNat) := by
  by_cases hb : p.b = 0
  · exact .inl ⟨hb, if_pos hb⟩
  · have e : walk u p cap d x = walkLoop u p d cap.toNat 0 x := if_neg hb
    rw [e]
    rcases firstReturn_or_capped u p d x cap.toNat with ⟨j, hj, h⟩ | h
    · obtain ⟨h1, h2, h3⟩ := walkLoop_of_firstReturn 0 h hj
      exact .inr (.inl ⟨hb, j, hj, h, h1, h2, by omega⟩)
    · obtain ⟨h1, h2, h3⟩ := walkLoop_of_capped 0 h
      exact .inr (.inr ⟨hb, h, h1, h2, by omega⟩)

theorem walk_of_firstReturn {u : HashPort} {p : Perm} {cap : Word} {d : Direction} {x : Word} {j : Nat}
    (hb : p.b ≠ 0) (h : FirstReturn u p d x j) (hj : j ≤ cap.toNat) :
    (walk u p cap d x).code = .ok ∧ (walk u p cap d x).value = (applyStep u p d)^[j] x ∧
      (walk u p cap d x).steps = j := by
  rw [walk, if_neg hb]
  obtain ⟨h1, h2, h3⟩ := walkLoop_of_firstReturn 0 h hj
  exact ⟨h1, h2, by omega⟩

theorem walk_of_capped {u : HashPort} {p : Perm} {cap : Word} {d : Direction} {x : Word} (hb : p.b ≠ 0)
    (h : ∀ i, 1 ≤ i → i ≤ cap.toNat → p.n ≤ (applyStep u p d)^[i] x) :
    (walk u p cap d x).code = .internalInvariantViolation ∧ (walk u p cap d x).value = 0 ∧
      (walk u p cap d x).steps = cap.toNat := by
  rw [walk, if_neg hb]
  obtain ⟨h1, h2, h3⟩ := walkLoop_of_capped 0 h
  exact ⟨h1, h2, by omega⟩

theorem walk_steps_le (u : HashPort) (p : Perm) (cap : Word) (d : Direction) (x : Word) :
    (walk u p cap d x).steps ≤ cap.toNat := by
  rcases walk_cases u p cap d x with ⟨-, h⟩ | ⟨-, j, hj, -, -, -, h⟩ | ⟨-, -, -, -, h⟩
  · rw [h]; exact Nat.zero_le _
  · omega
  · omega

/-- A walk's code is OK or INTERNAL_INVARIANT_VIOLATION, with value 0 in the second case (R94). -/
theorem walk_code (u : HashPort) (p : Perm) (cap : Word) (d : Direction) (x : Word) :
    (walk u p cap d x).code = .ok ∨
      ((walk u p cap d x).code = .internalInvariantViolation ∧ (walk u p cap d x).value = 0) := by
  rcases walk_cases u p cap d x with ⟨-, h⟩ | ⟨-, j, hj, -, h, -, -⟩ | ⟨-, -, h, h', -⟩
  · rw [h]; exact .inl rfl
  · exact .inl h
  · exact .inr ⟨h, h'⟩

/-- A walk from `x < N` that answers OK answers a value below `N` (R98). -/
theorem walk_value_lt {u : HashPort} {p : Perm} {cap : Word} {d : Direction} {x : Word} (hx : x < p.n)
    (h : (walk u p cap d x).code = .ok) : (walk u p cap d x).value < p.n := by
  rcases walk_cases u p cap d x with ⟨-, e⟩ | ⟨-, j, hj, hr, -, e, -⟩ | ⟨-, -, e, -, -⟩
  · rw [e]; exact hx
  · rw [e]; exact hr.2.1
  · rw [e] at h; cases h

/-- Hash transactions of a walk: ROUNDS a step (R97). -/
theorem length_walk_sent (u : HashPort) (p : Perm) (cap : Word) (d : Direction) (x : Word) :
    (walk u p cap d x).sent.length = p.rounds.toNat * (walk u p cap d x).steps := by
  rw [walk]
  split
  · simp
  · have := (length_walkLoop_sent u p d cap.toNat 0 x).2
    simpa using this

end Sys2Proof.Machine
end

