-- ==== Sys2Proof/Laws/Exec.lean ====
section
/-! SUPPORT. Everything exec can do, said once: the cases of its next state. Statements about exec cite `exec_effect` and never unfold a meaning. -/

namespace Sys2Proof.Machine

/-- The next states of a command in state `s`. -/
inductive Effect (s : State) : Instr → State → Prop where
  | raise {i : Instr} {code : Code} :
      code ≠ .ok → code ≠ .internalInvariantViolation → Effect s i (s.raise code)
  | construct {n seed : Word} {rounds : Byte} :
      n ≤ Config.nMax → rounds ≠ 0 →
      Effect s (.construct n seed rounds)
        (State.respond .ok 0 (State.clearCursors { s with perm := permOf n seed rounds }))
  | get {x : Word} :
      x < s.perm.n → Effect s (.get x) (s.closeQuery (walk s.hashPort s.perm s.walkCap .forward x))
  | invert {x : Word} :
      x < s.perm.n → Effect s (.invert x) (s.closeQuery (walk s.hashPort s.perm s.walkCap .inverse x))
  | iter {c : Byte} :
      c.toNat < s.ncur → Effect s (.iter c) (s.openCursor c 0 s.perm.n)
  | range {c : Byte} {lo hi : Word} :
      c.toNat < s.ncur → lo ≤ hi → hi ≤ s.perm.n → Effect s (.range c lo hi) (s.openCursor c lo hi)
  | next {c : Byte} {cur : Cursor} :
      s.cursor? c = some cur → cur.pos < cur.stop →
      Effect s (.next c) (s.closeNext c cur (walk s.hashPort s.perm s.walkCap .forward cur.pos))
  | readState {reg : StateReg} {v : Word} :
      s.readReg reg = some v → Effect s (.readState reg) (s.respond .ok v)

theorem word_lt_of_not_le {a b : Word} (h : ¬ b ≤ a) : a < b := by
  rw [BitVec.lt_def]; rw [BitVec.le_def] at h; omega

/-- Every command answers a next state, and it is one of the effects. -/
theorem exec_total (i : Instr) (s : State) : ∃ t, exec i s = .next t ∧ Effect s i t := by
  cases i with
  | construct n seed rounds =>
    change ∃ t, execConstruct n seed rounds s = .next t ∧ _
    rw [execConstruct]
    split
    · exact ⟨_, rfl, .raise (by decide) (by decide)⟩
    · split
      · exact ⟨_, rfl, .raise (by decide) (by decide)⟩
      · exact ⟨_, rfl, .construct (word_le_of_not_lt ‹_›) ‹_›⟩
  | get x =>
    change ∃ t, queryWith s.hashPort .forward x s = .next t ∧ _
    rw [queryWith]
    split
    · exact ⟨_, rfl, .raise (by decide) (by decide)⟩
    · exact ⟨_, rfl, .get (word_lt_of_not_le ‹_›)⟩
  | invert x =>
    change ∃ t, queryWith s.hashPort .inverse x s = .next t ∧ _
    rw [queryWith]
    split
    · exact ⟨_, rfl, .raise (by decide) (by decide)⟩
    · exact ⟨_, rfl, .invert (word_lt_of_not_le ‹_›)⟩
  | iter c =>
    change ∃ t, execIter c s = .next t ∧ _
    rw [execIter]
    split
    · exact ⟨_, rfl, .iter ‹_›⟩
    · exact ⟨_, rfl, .raise (by decide) (by decide)⟩
  | range c lo hi =>
    change ∃ t, execRange c lo hi s = .next t ∧ _
    rw [execRange]
    split
    · split
      · exact ⟨_, rfl, .raise (by decide) (by decide)⟩
      · rename_i h1 h2
        rw [not_or] at h2
        exact ⟨_, rfl, .range h1 (word_le_of_not_lt h2.1) (word_le_of_not_lt h2.2)⟩
    · exact ⟨_, rfl, .raise (by decide) (by decide)⟩
  | next c =>
    change ∃ t, nextWith s.hashPort c s = .next t ∧ _
    rw [nextWith]
    split
    · exact ⟨_, rfl, .raise (by decide) (by decide)⟩
    · split
      · exact ⟨_, rfl, .raise (by decide) (by decide)⟩
      · exact ⟨_, rfl, .next ‹_› (word_lt_of_not_le ‹_›)⟩
  | readState reg =>
    change ∃ t, execReadState reg s = .next t ∧ _
    rw [execReadState]
    split
    · exact ⟨_, rfl, .readState ‹_›⟩
    · exact ⟨_, rfl, .raise (by decide) (by decide)⟩

theorem exec_effect {i : Instr} {s t : State} (h : exec i s = .next t) : Effect s i t := by
  obtain ⟨t', h', e⟩ := exec_total i s
  rw [h] at h'
  cases h'
  exact e

end Sys2Proof.Machine
end

