-- ==== Sys2Proof/Laws/Step.lean ====
section
/-! SUPPORT. Everything a step can do, said once: the cases of its next state (70_reset_and_hazards.md R131, R136; 41_round_function.md R82). Whole-machine statements
cite `step_effect`. -/

namespace Sys2Proof.Machine

/-- The next states of a step from `s`. -/
inductive StepEffect (s : State) : State → Prop where
  | reset : s.pinsNow.rst = true → StepEffect s s.tick.resetEdge
  | accept : s.pinsNow.rst = false → s.cmdPhase = .idle → s.pinsNow.cmdValid = true →
      StepEffect s (s.tick.accept s.pinsNow.cmdData)
  | release : s.pinsNow.rst = false → s.cmdPhase = .resp → s.pinsNow.rspReady = true →
      StepEffect s s.tick.release
  | wait : s.pinsNow.rst = false → s.cmdPhase ≠ .exec → StepEffect s s.tick
  | illegal {why : DecodeError} : s.pinsNow.rst = false → s.cmdPhase = .exec →
      decode s.ncur s.cmdData = .illegal why → StepEffect s (s.tick.raise .illegalCommand)
  | command {i : Instr} {t : State} : s.pinsNow.rst = false → s.cmdPhase = .exec →
      decode s.ncur s.cmdData = .command i → (s.hashUnit = .pins → s.tick.walkRequest i = none) →
      exec i s.tick = .next t → Effect s.tick i t → StepEffect s t
  | start {i : Instr} {d : Direction} {x0 : Word} : s.pinsNow.rst = false → s.cmdPhase = .exec →
      s.hashUnit = .pins → decode s.ncur s.cmdData = .command i → s.tick.walkRequest i = some (d, x0) →
      s.walking = false → StepEffect s (s.tick.walkTurn i d 0 x0)
  | walk {i : Instr} {d : Direction} {x0 : Word} : s.pinsNow.rst = false → s.cmdPhase = .exec →
      s.hashUnit = .pins → decode s.ncur s.cmdData = .command i → s.tick.walkRequest i = some (d, x0) →
      s.walking = true → StepEffect s (s.tick.walkEdge s.hashPort.enc i d s.pinsNow)

/-- Every state has a next state, and it is one of the effects: PRS-CORE never stops (60 R121). -/
theorem step_total (s : State) : ∃ t, step s = .next t ∧ StepEffect s t := by
  rw [step, State.edge]
  cases hr : s.pinsNow.rst with
  | true => exact ⟨_, rfl, .reset hr⟩
  | false =>
    simp only [Bool.false_eq_true, if_false, State.tick_cmdPhase]
    cases hp : s.cmdPhase with
    | idle =>
      cases hv : s.pinsNow.cmdValid with
      | true => exact ⟨_, rfl, .accept hr hp hv⟩
      | false => exact ⟨_, rfl, .wait hr (by rw [hp]; decide)⟩
    | resp =>
      cases hv : s.pinsNow.rspReady with
      | true => exact ⟨_, rfl, .release hr hp hv⟩
      | false => exact ⟨_, rfl, .wait hr (by rw [hp]; decide)⟩
    | exec =>
      change ∃ t, s.tick.executeEdge s.pinsNow = .next t ∧ _
      cases hd : decode s.ncur s.cmdData with
      | illegal why =>
        refine ⟨_, ?_, .illegal hr hp hd⟩
        cases hu : s.hashUnit <;>
          simp only [State.executeEdge, State.executeLatched, State.execEdge, State.tick_hashUnit, State.ncur_tick,
            State.tick_cmdData, hu, hd]
      | command i =>
        obtain ⟨t, ht, he⟩ := exec_total i s.tick
        cases hu : s.hashUnit with
        | contract =>
          refine ⟨t, ?_, .command hr hp hd (fun h => by rw [hu] at h; cases h) ht he⟩
          simp only [State.executeEdge, State.executeLatched, State.tick_hashUnit, State.ncur_tick, State.tick_cmdData, hu, hd, ht]
        | pins =>
          cases hw : s.tick.walkRequest i with
          | none =>
            refine ⟨t, ?_, .command hr hp hd (fun _ => hw) ht he⟩
            simp only [State.executeEdge, State.execEdge, State.tick_hashUnit, State.ncur_tick, State.tick_cmdData, hu, hd, hw, ht]
          | some q =>
            obtain ⟨d, x0⟩ := q
            cases hk : s.walking with
            | true =>
              refine ⟨_, ?_, .walk hr hp hu hd hw hk⟩
              simp only [State.executeEdge, State.execEdge, State.tick_hashUnit, State.ncur_tick, State.tick_cmdData,
                State.tick_walking, hu, hd, hw, hk, if_true, State.hashPort_tick]
            | false =>
              refine ⟨_, ?_, .start hr hp hu hd hw hk⟩
              simp only [State.executeEdge, State.execEdge, State.tick_hashUnit, State.ncur_tick, State.tick_cmdData,
                State.tick_walking, hu, hd, hw, hk, Bool.false_eq_true, if_false]

theorem step_effect {s t : State} (h : step s = .next t) : StepEffect s t := by
  obtain ⟨t', h', e⟩ := step_total s
  rw [h] at h'
  cases h'
  exact e

theorem State.walkRequest_tick (s : State) (i : Instr) : s.tick.walkRequest i = s.walkRequest i := by
  cases i <;> rfl

/-- What an edge of a walk can lead to: a wait or a phase of the transaction; the next round; the walk's end with a value below N; the next pass; the violation. -/
theorem State.walkTurn_cases (i : Instr) (d : Direction) (k x : Word) (s : State) :
    (k = s.walkCap ∧ s.walkTurn i d k x =
      s.closeWalk i { code := .internalInvariantViolation, value := 0, steps := k.toNat, sent := [] }) ∨
    (k ≠ s.walkCap ∧ s.walkTurn i d k x = { s with
      walking := true
      hashPhase := .hidle
      dp := { x := x, k := k, r := firstRound s.perm d, lanes := splitBlock s.perm x } }) := by
  by_cases h : k = s.walkCap
  · exact .inl ⟨h, if_pos h⟩
  · exact .inr ⟨h, if_neg h⟩

/-- A walk's end is `closeQuery`, or `closeNext` of its cursor. -/
theorem State.closeWalk_cases (i : Instr) (w : WalkResult) (s : State) :
    s.closeWalk i w = s.closeQuery w ∨
      ∃ c cur, i = .next c ∧ s.cursor? c = some cur ∧ s.closeWalk i w = s.closeNext c cur w := by
  cases i with
  | next c =>
    cases h : s.cursor? c with
    | none => exact .inl (by simp only [State.closeWalk, h])
    | some cur => exact .inr ⟨c, cur, rfl, h, by simp only [State.closeWalk, h]⟩
  | _ => exact .inl rfl

theorem State.closeWalk_next {s : State} {c : Byte} {cur : Cursor} (h : s.cursor? c = some cur) (w : WalkResult) :
    s.closeWalk (.next c) w = s.closeNext c cur w := by
  simp only [State.closeWalk, h]

/-- What a walk's end leaves, whichever command it ends: the Permutation and the constants stay; the response, WALK_COUNT and IIV are the walk's. -/
theorem State.closeWalk_keeps (i : Instr) (w : WalkResult) (s : State) :
    (s.closeWalk i w).perm = s.perm ∧ (s.closeWalk i w).walkCap = s.walkCap ∧ (s.closeWalk i w).ncur = s.ncur ∧
    (s.closeWalk i w).cmdPhase = .resp ∧ (s.closeWalk i w).response = { code := w.code, value := w.value } ∧
    (s.closeWalk i w).walkCount = BitVec.ofNat 64 w.steps ∧
    (s.closeWalk i w).status = (if w.code = .internalInvariantViolation then s.status ||| 1 else s.status) ∧
    (s.closeWalk i w).walking = false ∧ (s.closeWalk i w).hashPhase = .hidle ∧
    (s.closeWalk i w).hashSent = s.hashSent ++ w.sent ∧ (w.code ≠ .ok → (s.closeWalk i w).cursors = s.cursors) := by
  rcases State.closeWalk_cases i w s with h | ⟨c, cur, hi, hc, h⟩ <;> rw [h]
  · simp [State.closeQuery]
  · simp [State.closeNext]
    intro hne
    have hc' : s.cursors[c.toNat]? = some cur := hc
    obtain ⟨hl, he⟩ := List.getElem?_eq_some_iff.1 hc'
    rw [advanceCursor, if_neg hne, ← he]
    exact List.set_getElem_self hl

@[simp] theorem State.closeWalk_encoding (i : Instr) (w : WalkResult) (s : State) : (s.closeWalk i w).encoding = s.encoding := by
  rcases State.closeWalk_cases i w s with h | ⟨c, cur, -, -, h⟩ <;> rw [h] <;> rfl

/-- An edge of a walk takes the pending digest, or touches the hash transaction only. -/
theorem State.walkEdge_cases (en : Enc) (i : Instr) (d : Direction) (e : PortIn) (s : State) :
    (∃ hp msg sent, s.walkEdge en i d e = { s with hashPhase := hp, hashMsg := msg, hashSent := sent }) ∨
    (s.hashPhase = .hwait ∧ e.hashRspValid = true ∧ s.walkEdge en i d e = s.takeDigest i d e.hashRspData) := by
  unfold State.walkEdge
  cases h : s.hashPhase with
  | hidle => exact .inl ⟨_, _, _, rfl⟩
  | hreq =>
    by_cases h' : e.hashReqReady = true
    · simp only [h', if_true]; exact .inl ⟨_, _, _, rfl⟩
    · simp only [h']; exact .inl ⟨.hreq, s.hashMsg, s.hashSent, by rw [← h]; rfl⟩
  | hwait =>
    by_cases h' : e.hashRspValid = true
    · simp only [h', if_true]; exact .inr ⟨trivial, trivial, trivial⟩
    · simp only [h']; exact .inl ⟨.hwait, s.hashMsg, s.hashSent, by rw [← h]; rfl⟩

/-- A digest leads to the next round, to the walk's end with a value below N, or to the top of the walk's loop. -/
theorem State.takeDigest_cases (i : Instr) (d : Direction) (g : Word) (s : State) :
    (s.dp.r ≠ lastRound s.perm d ∧ s.takeDigest i d g = { s with
      hashPhase := .hidle
      dp := { s.dp with
        r := nextRound s.dp.r d
        lanes := mixRound (reduceDigest s.perm g) s.dp.lanes d } }) ∨
    (s.dp.r = lastRound s.perm d ∧ packBlock s.perm (mixRound (reduceDigest s.perm g) s.dp.lanes d) < s.perm.n ∧
      s.takeDigest i d g = s.closeWalk i
        { code := .ok, value := packBlock s.perm (mixRound (reduceDigest s.perm g) s.dp.lanes d),
          steps := (s.dp.k + 1).toNat, sent := [] }) ∨
    (s.dp.r = lastRound s.perm d ∧ ¬ packBlock s.perm (mixRound (reduceDigest s.perm g) s.dp.lanes d) < s.perm.n ∧
      s.takeDigest i d g =
        s.walkTurn i d (s.dp.k + 1) (packBlock s.perm (mixRound (reduceDigest s.perm g) s.dp.lanes d))) := by
  unfold State.takeDigest
  split
  · right
    unfold State.endPass
    split
    · exact .inl ⟨‹_›, ‹_›, rfl⟩
    · exact .inr ⟨‹_›, ‹_›, rfl⟩
  · exact .inl ⟨‹_›, rfl⟩

theorem State.walkTurn_keeps (i : Instr) (d : Direction) (k x : Word) (s : State) :
    (s.walkTurn i d k x).perm = s.perm ∧ (s.walkTurn i d k x).walkCap = s.walkCap ∧
      (s.walkTurn i d k x).ncur = s.ncur ∧ (s.walkTurn i d k x).encoding = s.encoding := by
  rcases State.walkTurn_cases i d k x s with ⟨-, h⟩ | ⟨-, h⟩ <;> rw [h]
  · obtain ⟨h1, h2, h3, -⟩ := State.closeWalk_keeps i
      { code := .internalInvariantViolation, value := 0, steps := k.toNat, sent := [] } s
    exact ⟨h1, h2, h3, State.closeWalk_encoding _ _ _⟩
  · exact ⟨rfl, rfl, rfl, rfl⟩

/-- No edge of a walk writes the Permutation or the parameters. -/
theorem State.walkEdge_keeps (en : Enc) (i : Instr) (d : Direction) (e : PortIn) (s : State) :
    (s.walkEdge en i d e).perm = s.perm ∧ (s.walkEdge en i d e).walkCap = s.walkCap ∧
      (s.walkEdge en i d e).ncur = s.ncur ∧ (s.walkEdge en i d e).encoding = s.encoding := by
  rcases State.walkEdge_cases en i d e s with ⟨hp, msg, sent, h⟩ | ⟨-, -, h⟩ <;> rw [h]
  · exact ⟨rfl, rfl, rfl, rfl⟩
  · rcases State.takeDigest_cases i d e.hashRspData s with ⟨-, h⟩ | ⟨-, -, h⟩ | ⟨-, -, h⟩ <;> rw [h]
    · exact ⟨rfl, rfl, rfl, rfl⟩
    · obtain ⟨h1, h2, h3, -⟩ := State.closeWalk_keeps i
        { code := .ok, value := packBlock s.perm (mixRound (reduceDigest s.perm e.hashRspData) s.dp.lanes d),
          steps := (s.dp.k + 1).toNat, sent := [] } s
      exact ⟨h1, h2, h3, State.closeWalk_encoding _ _ _⟩
    · exact State.walkTurn_keeps _ _ _ _ _

/-- A walk's step count fits its register. -/
theorem toNat_walk_steps (u : HashPort) (p : Perm) (cap : Word) (d : Direction) (x : Word) :
    (BitVec.ofNat 64 (walk u p cap d x).steps).toNat = (walk u p cap d x).steps := by
  have h1 := walk_steps_le u p cap d x
  have h2 := cap.isLt
  rw [BitVec.toNat_ofNat, Nat.mod_eq_of_lt (by omega)]

end Sys2Proof.Machine
end

