-- ==== Sys2Proof/Laws/Port.lean ====
section
/-! SUPPORT. A walk run edge by edge: what a step is while a walk is under way, what a command asks the walker for, and how far a pass has come (41_round_function.md
R82; 42_feistel_engine.md R87, R88, R92; 43_cycle_walker.md R94). -/

namespace Sys2Proof.Machine

/-- A step of a walk under way. -/
theorem step_of_walking {s : State} {i : Instr} {d : Direction} {x0 : Word} (hu : s.hashUnit = .pins)
    (hp : s.cmdPhase = .exec) (hr : s.pinsNow.rst = false) (hk : s.walking = true)
    (hd : decode s.ncur s.cmdData = .command i) (hw : s.walkRequest i = some (d, x0)) :
    step s = .next (s.tick.walkEdge s.hashPort.enc i d s.pinsNow) := by
  simp only [step, State.edge, hr, State.tick_cmdPhase, hp, State.executeEdge, State.tick_hashUnit, hu, State.execEdge,
    State.ncur_tick, State.tick_cmdData, hd, State.walkRequest_tick, hw, State.tick_walking, hk, if_true,
    Bool.false_eq_true, if_false, State.hashPort_tick]

/-- The step that starts a walk. -/
theorem step_of_start {s : State} {i : Instr} {d : Direction} {x0 : Word} (hu : s.hashUnit = .pins)
    (hp : s.cmdPhase = .exec) (hr : s.pinsNow.rst = false) (hk : s.walking = false)
    (hd : decode s.ncur s.cmdData = .command i) (hw : s.walkRequest i = some (d, x0)) :
    step s = .next (s.tick.walkTurn i d 0 x0) := by
  simp only [step, State.edge, hr, State.tick_cmdPhase, hp, State.executeEdge, State.tick_hashUnit, hu, State.execEdge,
    State.ncur_tick, State.tick_cmdData, hd, State.walkRequest_tick, hw, State.tick_walking, hk,
    Bool.false_eq_true, if_false]

/-- The step of a command that needs no walk. -/
theorem step_of_no_walk {s : State} {i : Instr} (hp : s.cmdPhase = .exec) (hr : s.pinsNow.rst = false)
    (hd : decode s.ncur s.cmdData = .command i) (hw : s.walkRequest i = none) : step s = exec i s.tick := by
  cases hu : s.hashUnit <;>
    simp only [step, State.edge, hr, State.tick_cmdPhase, hp, State.executeEdge, State.tick_hashUnit, hu, State.execEdge,
      State.executeLatched, State.ncur_tick, State.tick_cmdData, hd, State.walkRequest_tick, hw, Bool.false_eq_true,
      if_false]

/-- What a command asks the walker for: a non-trivial Permutation, and the operand of a GET or INVERT, or the position of a cursor that is not exhausted. -/
theorem State.walkRequest_cases {s : State} {i : Instr} {d : Direction} {x : Word}
    (h : s.walkRequest i = some (d, x)) :
    s.perm.b ≠ 0 ∧
      ((i = .get x ∧ d = .forward ∧ x < s.perm.n) ∨ (i = .invert x ∧ d = .inverse ∧ x < s.perm.n) ∨
        ∃ c cur, i = .next c ∧ d = .forward ∧ s.cursor? c = some cur ∧ x = cur.pos ∧ cur.pos < cur.stop) := by
  cases i with
  | get y =>
    simp only [State.walkRequest] at h
    split at h
    · cases h
    · rename_i hn; cases h; rw [not_or] at hn
      exact ⟨hn.2, .inl ⟨rfl, rfl, word_lt_of_not_le hn.1⟩⟩
  | invert y =>
    simp only [State.walkRequest] at h
    split at h
    · cases h
    · rename_i hn; cases h; rw [not_or] at hn
      exact ⟨hn.2, .inr (.inl ⟨rfl, rfl, word_lt_of_not_le hn.1⟩)⟩
  | next c =>
    simp only [State.walkRequest] at h
    split at h
    · cases h
    · rename_i cur hc
      split at h
      · cases h
      · rename_i hn; cases h; rw [not_or] at hn
        exact ⟨hn.2, .inr (.inr ⟨c, cur, rfl, rfl, hc, rfl, word_lt_of_not_le hn.1⟩)⟩
  | _ => cases h

/-- A walk starts below N in a legal state. -/
theorem State.Legal.walkRequest_lt {s : State} (hs : s.Legal) {i : Instr} {d : Direction} {x : Word}
    (h : s.walkRequest i = some (d, x)) : x < s.perm.n := by
  obtain ⟨-, ⟨-, -, hx⟩ | ⟨-, -, hx⟩ | ⟨c, cur, -, -, hc, rfl, hlt⟩⟩ := State.walkRequest_cases h
  · exact hx
  · exact hx
  · have h2 := (hs.cursors cur (List.mem_of_getElem? hc)).2
    rw [BitVec.le_def] at h2
    rw [BitVec.lt_def] at hlt ⊢
    omega

/-- The whole command, for one that asks for a walk: the walk, closed. -/
theorem exec_of_walkRequest {s : State} {i : Instr} {d : Direction} {x : Word}
    (h : s.walkRequest i = some (d, x)) :
    exec i s = .next (s.closeWalk i (walk s.hashPort s.perm s.walkCap d x)) := by
  obtain ⟨-, ⟨rfl, rfl, hx⟩ | ⟨rfl, rfl, hx⟩ | ⟨c, cur, rfl, rfl, hc, rfl, hlt⟩⟩ := State.walkRequest_cases h
  · exact if_neg (by rw [BitVec.lt_def] at hx; rw [BitVec.le_def]; omega)
  · exact if_neg (by rw [BitVec.lt_def] at hx; rw [BitVec.le_def]; omega)
  · change nextWith s.hashPort c s = _
    rw [nextWith, hc]
    simp only [State.closeWalk, hc]
    exact if_neg (by rw [BitVec.lt_def] at hlt; rw [BitVec.le_def]; omega)

/-- The input samples do not reach a command's meaning. -/
theorem exec_tick (i : Instr) (s : State) : ∃ t, exec i s = .next t ∧ exec i s.tick = .next t.tick := by
  cases i with
  | construct n seed rounds =>
    change ∃ t, execConstruct n seed rounds s = .next t ∧ execConstruct n seed rounds s.tick = .next t.tick
    unfold execConstruct
    split
    · exact ⟨_, rfl, rfl⟩
    · split <;> exact ⟨_, rfl, rfl⟩
  | get x =>
    change ∃ t, queryWith s.hashPort .forward x s = .next t ∧ queryWith s.hashPort .forward x s.tick = .next t.tick
    unfold queryWith
    rw [State.tick_perm]
    split <;> exact ⟨_, rfl, rfl⟩
  | invert x =>
    change ∃ t, queryWith s.hashPort .inverse x s = .next t ∧ queryWith s.hashPort .inverse x s.tick = .next t.tick
    unfold queryWith
    rw [State.tick_perm]
    split <;> exact ⟨_, rfl, rfl⟩
  | iter c =>
    change ∃ t, execIter c s = .next t ∧ execIter c s.tick = .next t.tick
    unfold execIter
    rw [State.ncur_tick]
    split <;> exact ⟨_, rfl, rfl⟩
  | range c lo hi =>
    change ∃ t, execRange c lo hi s = .next t ∧ execRange c lo hi s.tick = .next t.tick
    unfold execRange
    rw [State.ncur_tick, State.tick_perm]
    split
    · split <;> exact ⟨_, rfl, rfl⟩
    · exact ⟨_, rfl, rfl⟩
  | next c =>
    change ∃ t, nextWith s.hashPort c s = .next t ∧ nextWith s.hashPort c s.tick = .next t.tick
    unfold nextWith
    rw [show s.tick.cursor? c = s.cursor? c from rfl]
    split
    · exact ⟨_, rfl, rfl⟩
    · split <;> exact ⟨_, rfl, rfl⟩
  | readState reg =>
    change ∃ t, execReadState reg s = .next t ∧ execReadState reg s.tick = .next t.tick
    unfold execReadState
    rw [show s.tick.readReg reg = s.readReg reg by cases reg <;> rfl]
    split <;> exact ⟨_, rfl, rfl⟩

/-- How far a pass over the block `x` has come when round `r` is next: the halves are `l`, the messages sent are `sent`. -/
def PassAt (u : HashPort) (p : Perm) (x : Word) (r : Nat) (l : Lanes) (sent : List Message) : Direction → Prop
  | .forward => l = roundsForward u p r (splitBlock p x) ∧ sent = messagesForward u p r (splitBlock p x)
  | .inverse =>
    roundsBackward u p p.rounds.toNat (splitBlock p x) = roundsBackward u p (r + 1) l ∧
      messagesBackward u p p.rounds.toNat (splitBlock p x) = sent ++ messagesBackward u p (r + 1) l

theorem toNat_pred {p : Perm} (hp : p.Legal) : (p.rounds - 1).toNat + 1 = p.rounds.toNat := by
  have h : p.rounds.toNat ≠ 0 := fun h => hp.rounds_ne (BitVec.eq_of_toNat_eq h)
  have := p.rounds.isLt
  rw [BitVec.toNat_sub]
  simp
  omega

/-- A pass starts at its first round, nothing sent. -/
theorem passAt_first (u : HashPort) {p : Perm} (hp : p.Legal) (x : Word) (d : Direction) :
    PassAt u p x (firstRound p d).toNat (splitBlock p x) [] d := by
  cases d with
  | forward => exact ⟨rfl, rfl⟩
  | inverse =>
    simp only [PassAt, firstRound, toNat_pred hp, List.nil_append, and_self]

/-- The round counter stays below ROUNDS. -/
theorem nextRound_lt {p : Perm} (hp : p.Legal) {d : Direction} {r : Byte} (hr : r < p.rounds)
    (h : r ≠ lastRound p d) : nextRound r d < p.rounds := by
  have h1 := toNat_pred hp
  have h2 := p.rounds.isLt
  rw [BitVec.lt_def] at hr ⊢
  cases d with
  | forward =>
    have h3 : r.toNat ≠ (p.rounds - 1).toNat := fun e => h (BitVec.eq_of_toNat_eq e)
    rw [nextRound, BitVec.toNat_add]
    simp
    omega
  | inverse =>
    have h3 : r.toNat ≠ 0 := fun e => h (BitVec.eq_of_toNat_eq e)
    rw [nextRound, BitVec.toNat_sub]
    simp
    omega

theorem firstRound_lt {p : Perm} (hp : p.Legal) (d : Direction) : firstRound p d < p.rounds := by
  have h1 := toNat_pred hp
  rw [BitVec.lt_def]
  cases d with
  | forward => rw [firstRound]; simp; omega
  | inverse => rw [firstRound]; omega

/-- A round moves the pass one round on. -/
theorem passAt_next {u : HashPort} {p : Perm} (hp : p.Legal) {x : Word} {d : Direction} {r : Byte} {l : Lanes}
    {sent : List Message} (hr : r < p.rounds) (hl : r ≠ lastRound p d) (h : PassAt u p x r.toNat l sent d) :
    PassAt u p x (nextRound r d).toNat (mixRound (roundF u p r (roundInput l d)) l d)
      (sent ++ [u.enc p.seed r (roundInput l d)]) d := by
  have h1 := toNat_pred hp
  have h2 := p.rounds.isLt
  rw [BitVec.lt_def] at hr
  cases d with
  | forward =>
    have h3 : r.toNat ≠ (p.rounds - 1).toNat := fun e => hl (BitVec.eq_of_toNat_eq e)
    have h4 : (nextRound r .forward).toNat = r.toNat + 1 := by
      rw [nextRound, BitVec.toNat_add]; simp; omega
    obtain ⟨rfl, rfl⟩ := h
    rw [h4]
    simp only [PassAt, roundsForward, messagesForward, roundForward, mixRound, roundInput, BitVec.ofNat_toNat,
      BitVec.setWidth_eq, and_self]
  | inverse =>
    have h3 : r.toNat ≠ 0 := fun e => hl (BitVec.eq_of_toNat_eq e)
    have h4 : (nextRound r .inverse).toNat + 1 = r.toNat := by
      rw [nextRound, BitVec.toNat_sub]; simp; omega
    obtain ⟨e1, e2⟩ := h
    simp only [PassAt, h4]
    simp only [roundsBackward, messagesBackward, roundBackward, BitVec.ofNat_toNat, BitVec.setWidth_eq] at e1 e2
    refine ⟨e1, ?_⟩
    rw [e2]
    simp [mixRound, roundInput]

/-- The last round completes the step function's application. -/
theorem passAt_last {u : HashPort} {p : Perm} (hp : p.Legal) {x : Word} {d : Direction} {r : Byte} {l : Lanes}
    {sent : List Message} (hl : r = lastRound p d) (h : PassAt u p x r.toNat l sent d) :
    packBlock p (mixRound (roundF u p r (roundInput l d)) l d) = applyStep u p d x ∧
      sent ++ [u.enc p.seed r (roundInput l d)] = stepMessages u p d x := by
  have h1 := toNat_pred hp
  cases d with
  | forward =>
    obtain ⟨rfl, rfl⟩ := h
    subst hl
    simp only [applyStep, encrypt, stepMessages, ← h1, roundsForward, messagesForward, roundForward, mixRound, roundInput,
      lastRound, BitVec.ofNat_toNat, BitVec.setWidth_eq, and_self]
  | inverse =>
    subst hl
    obtain ⟨e1, e2⟩ := h
    simp only [applyStep, decrypt, stepMessages, e1, e2]
    simp [lastRound, roundsBackward, messagesBackward, roundBackward, mixRound, roundInput]

/-- The halves of a round fit the mask, whatever the digest. -/
theorem mixRound_fit {p : Perm} (hp : p.Legal) (d : Direction) (g : Word) {l : Lanes} (hl : LanesFit p l) :
    LanesFit p (mixRound (reduceDigest p g) l d) := by
  cases d with
  | forward => exact ⟨hl.2, xor_le_mask hp hl.1 (reduceDigest_le hp g)⟩
  | inverse => exact ⟨xor_le_mask hp hl.2 (reduceDigest_le hp g), hl.1⟩

end Sys2Proof.Machine
end

