-- ==== Sys2Proof/Laws/Legal.lean ====
section
/-! SUPPORT. Each shared operation keeps the legal states (Sys2Proof/Safety.lean): one lemma an operation. -/

namespace Sys2Proof.Machine

/-- The step counter below the cap moves on without wrapping. -/
theorem succ_of_lt {k cap : Word} (h : k < cap) : (k + 1).toNat = k.toNat + 1 ∧ k + 1 ≤ cap := by
  have h1 := cap.isLt
  rw [BitVec.lt_def] at h
  rw [BitVec.le_def]
  have h2 : (k + 1).toNat = k.toNat + 1 := by rw [BitVec.toNat_add]; simp; omega
  omega

/-- Setting IIV keeps the reserved bits of STATUS at 0 (R29). -/
theorem status_or {b : BitVec 64} (h : b &&& 1 = b) : (b ||| 1) &&& 1 = b ||| 1 := by
  conv_rhs => rw [← h]
  ext i hi
  by_cases h0 : i = 0 <;> simp [h0]

theorem State.Legal.tick {s : State} (hs : s.Legal) : s.tick.Legal where
  cap_ne := hs.cap_ne
  ncur_pos := hs.ncur_pos
  ncur_le := hs.ncur_le
  perm := hs.perm
  status := hs.status
  walkCount := hs.walkCount
  cursors := hs.cursors
  response := hs.response
  hash := hs.hash
  walk := fun h => by
    obtain ⟨h1, ⟨i, d, x0, h2, h2'⟩, h3, h4, h5, h6⟩ := hs.walk h
    exact ⟨h1, ⟨i, d, x0, h2, by rw [State.walkRequest_tick]; exact h2'⟩, h3, h4, h5, h6⟩

theorem State.Legal.respond {s : State} (hs : s.Legal) (code : Code) (v : Word) (h : code ≠ .ok → v = 0) :
    (s.respond code v).Legal where
  cap_ne := hs.cap_ne
  ncur_pos := hs.ncur_pos
  ncur_le := hs.ncur_le
  perm := hs.perm
  status := hs.status
  walkCount := hs.walkCount
  cursors := hs.cursors
  response := h
  hash := fun h => absurd rfl h
  walk := fun h => by cases h

theorem State.Legal.setCursor {s : State} (hs : s.Legal) (hw : s.walking = false) (c : Byte) (cur : Cursor)
    (h : cur.pos ≤ cur.stop ∧ cur.stop ≤ s.perm.n) : (s.setCursor c cur).Legal where
  cap_ne := hs.cap_ne
  ncur_pos := by rw [State.ncur_setCursor]; exact hs.ncur_pos
  ncur_le := by rw [State.ncur_setCursor]; exact hs.ncur_le
  perm := hs.perm
  status := hs.status
  walkCount := hs.walkCount
  cursors := fun q hq => by
    rcases List.mem_or_eq_of_mem_set hq with h' | h'
    · exact hs.cursors q h'
    · rw [h']; exact h
  response := hs.response
  hash := hs.hash
  walk := fun h => by rw [State.setCursor_walking, hw] at h; cases h

/-- A walk's end. -/
theorem State.Legal.closeWalk {s : State} (hs : s.Legal) (i : Instr) (w : WalkResult) (hv : w.code ≠ .ok → w.value = 0)
    (hst : BitVec.ofNat 64 w.steps ≤ s.walkCap)
    (hreq : ∀ c cur, i = .next c → s.cursor? c = some cur → cur.pos < cur.stop) : (s.closeWalk i w).Legal := by
  obtain ⟨a1, a2, a3, a4, a5, a6, a7, a8, a9, -, -⟩ := State.closeWalk_keeps i w s
  refine ⟨?_, ?_, ?_, ?_, ?_, ?_, ?_, ?_, ?_, ?_⟩
  · rw [a2]; exact hs.cap_ne
  · rw [a3]; exact hs.ncur_pos
  · rw [a3]; exact hs.ncur_le
  · rw [a1]; exact hs.perm
  · rw [a7]
    split
    · exact status_or hs.status
    · exact hs.status
  · rw [a6, a2]; exact hst
  · rw [a1]
    rcases State.closeWalk_cases i w s with h | ⟨c, cur, hi, hc, h⟩
    · rw [h]; exact hs.cursors
    · rw [h]
      intro q hq
      have hcur := hs.cursors cur (State.mem_of_cursor? hc)
      rcases List.mem_or_eq_of_mem_set hq with h' | h'
      · exact hs.cursors q h'
      · rw [h', advanceCursor]
        split
        · exact ⟨(succ_of_lt (hreq c cur hi hc)).2, hcur.2⟩
        · exact hcur
  · rw [a5]; exact hv
  · intro h; exact absurd a9 h
  · intro h; rw [a8] at h; cases h

/-- A cursor whose NEXT asked for a walk is not exhausted. -/
theorem State.pos_lt_of_walkRequest {s : State} {i : Instr} {d : Direction} {x0 : Word}
    (hw : s.walkRequest i = some (d, x0)) (c : Byte) (cur : Cursor) (hi : i = .next c) (hc : s.cursor? c = some cur) :
    cur.pos < cur.stop := by
  obtain ⟨-, ⟨h, -⟩ | ⟨h, -⟩ | ⟨c', cur', h, -, h', -, h''⟩⟩ := State.walkRequest_cases hw
  · rw [hi] at h; cases h
  · rw [hi] at h; cases h
  · rw [hi] at h; cases h; rw [hc] at h'; cases h'; exact h''

/-- The top of the walk's loop. -/
theorem State.Legal.walkTurn {s : State} (hs : s.Legal) {i : Instr} {d : Direction} {x0 : Word} (hp : s.cmdPhase = .exec)
    (hd : decode s.ncur s.cmdData = .command i) (hw : s.walkRequest i = some (d, x0)) (k x : Word) (hk : k ≤ s.walkCap)
    (hx : x.toNat < 2 ^ s.perm.b.toNat) : (s.walkTurn i d k x).Legal := by
  rcases State.walkTurn_cases i d k x s with ⟨h, e⟩ | ⟨h, e⟩ <;> rw [e]
  · refine hs.closeWalk i _ (fun _ => rfl) ?_ (State.pos_lt_of_walkRequest hw)
    simpa using hk
  · have hfit := splitBlock_fit hs.perm x hx
    refine ⟨hs.cap_ne, hs.ncur_pos, hs.ncur_le, hs.perm, hs.status, hs.walkCount, hs.cursors, hs.response, fun _ => rfl,
      fun _ => ⟨hp, ⟨i, d, x0, hd, ?_⟩, ?_, firstRound_lt hs.perm d, hfit.1, hfit.2⟩⟩
    · rw [← hw]; cases i <;> rfl
    · rw [BitVec.le_def] at hk
      have hne : k.toNat ≠ s.walkCap.toNat := fun e => h (BitVec.eq_of_toNat_eq e)
      rw [BitVec.lt_def]
      show k.toNat < s.walkCap.toNat
      omega

end Sys2Proof.Machine
end

