-- ==== Sys2Proof/Laws/PerInstr.lean ====
section
/-! SUPPORT. One lemma per command: the header of its record is what its row of the opcode table asks for (30_encoding.md R56). -/

namespace Sys2Proof.Laws.HeaderMatchesRow

/-- The header of the command's record meets its row's mask and match, with every operand. -/
def Statement (i : Instr) : Prop :=
  match i with
  | .construct _ _ _ => (encode i).extractLsb' 0 32 &&& 0xFF00FFFF = 0x00000001
  | .get _ => (encode i).extractLsb' 0 32 &&& 0xFFFFFFFF = 0x00000002
  | .invert _ => (encode i).extractLsb' 0 32 &&& 0xFFFFFFFF = 0x00000003
  | .iter _ => (encode i).extractLsb' 0 32 &&& 0xFFFF00FF = 0x00000004
  | .range _ _ _ => (encode i).extractLsb' 0 32 &&& 0xFFFF00FF = 0x00000005
  | .next _ => (encode i).extractLsb' 0 32 &&& 0xFFFF00FF = 0x00000006
  | .readState _ => (encode i).extractLsb' 0 32 &&& 0xFFFF00FF = 0x00000007

/-- A header whose `RND` is masked out. -/
theorem masked_round (rnd : Byte) :
    (((0 : Byte) ++ rnd ++ (0 : Byte) ++ (1 : Byte)) &&& 0xFF00FFFF : BitVec 32) = 0x00000001 := by
  revert rnd; decide +kernel

/-- A header whose `IDX` is masked out. -/
theorem masked_index (idx op : Byte) :
    (((0 : Byte) ++ (0 : Byte) ++ idx ++ op) &&& 0xFFFF00FF : BitVec 32) = op.setWidth 32 := by
  ext i hi
  simp only [BitVec.getElem_and, BitVec.getElem_append, BitVec.getElem_setWidth]
  have h : (0xFFFF00FF : BitVec 32)[i] = (decide (i < 8) || decide (16 ≤ i)) := by
    revert i; decide
  rw [h]
  by_cases h1 : i < 8
  · simp [h1]
  · rw [BitVec.getLsbD_of_ge op i (by omega)]
    by_cases h2 : i < 16
    · simp [h1, show ¬ 16 ≤ i by omega]
    · simp [h1, show ¬ i - 8 < 8 by omega]

theorem construct (n seed : Word) (rounds : Byte) : Statement (.construct n seed rounds) :=
  (congrArg (· &&& _) (header_assemble _ _ _ _ _)).trans (masked_round rounds)

theorem get (i : Word) : Statement (.get i) :=
  (congrArg (· &&& _) (header_assemble _ _ _ _ _)).trans (by decide)

theorem invert (j : Word) : Statement (.invert j) :=
  (congrArg (· &&& _) (header_assemble _ _ _ _ _)).trans (by decide)

theorem iter (c : Byte) : Statement (.iter c) :=
  (congrArg (· &&& _) (header_assemble _ _ _ _ _)).trans (masked_index c 4)

theorem range (c : Byte) (lo hi : Word) : Statement (.range c lo hi) :=
  (congrArg (· &&& _) (header_assemble _ _ _ _ _)).trans (masked_index c 5)

theorem next (c : Byte) : Statement (.next c) :=
  (congrArg (· &&& _) (header_assemble _ _ _ _ _)).trans (masked_index c 6)

theorem readState (reg : StateReg) : Statement (.readState reg) :=
  (congrArg (· &&& _) (header_assemble _ _ _ _ _)).trans (masked_index (stateIndexOf reg) 7)

end Sys2Proof.Laws.HeaderMatchesRow
end

