-- ==== Sys2Proof/Tests/Slice0.lean ====
section
/-! SUPPORT. The model's own tests, expected results from spec/95_test_vectors.md and the rules' examples, and for each statement with hypotheses a witness that meets them. -/

open Sys2Proof Sys2Proof.Machine

namespace Sys2Proof.Tests

/-! States and the test hash -/

/-- `H_toy` (95 section 0) behind the default encoding. -/
def toy : HashPort := { enc := enc, hash := fun m => m.extractLsb' 0 64 + m.extractLsb' 64 64 + m.extractLsb' 128 64 }

/-- The reset machine with a Permutation. -/
def holding (n seed : Word) (rounds : Byte) : State := { State.reset with perm := permOf n seed rounds }

/-- A state with a record latched, in EXEC. -/
def latched (w : Record) (s : State) : State := { s with cmdPhase := .exec, cmdData := w }

/-- `N = 4 = 2^B`: every walk is one step, whatever the hash. -/
def full : State :=
  { holding 4 1 1 with
    cursors := [{ pos := 0, stop := 4 }, { pos := 3, stop := 4 }, { pos := 4, stop := 4 }, { pos := 0, stop := 0 }] }

/-- `GET 1` on `N = 3, SEED = 0, ROUNDS = 1` (43 R102), the hash unit on its pins, its one round waiting for the digest. -/
def waiting (cap : Word) (e : PortIn) : State :=
  { latched 0x0000000000000000000000000000000100000002 (holding 3 0 1) with
    walkCap := cap
    hashUnit := .pins
    walking := true
    dp := { x := 1, k := 0, r := 0, lanes := { lh := 0, rh := 1 } }
    hashPhase := .hwait
    hashMsg := enc 0 0 1
    io := [e] }

/-- An edge at which the hash unit returns `g`. -/
def digest (g : Word) : PortIn := { quietPins with hashRspValid := true, hashRspData := g }

/-! Encoding -/

/-- 95 P1 and the rules' examples. -/
theorem test_decode_construct :
    decode 4 0x0000000000000001000000000000000400010001 = .command (.construct 4 1 1) := by decide

/-- 95 2.1: RND = 0 on CONSTRUCT is not illegal. -/
theorem test_decode_construct_zero_rounds :
    decode 4 0x0000000000000001000000000000000400000001 = .command (.construct 4 1 0) := by decide

/-- 95 2.1: an ignored operand word. -/
theorem test_decode_get :
    decode 4 0xffffffffffffffff000000000000000100000002 = .command (.get 1) := by decide

theorem test_decode_invert :
    decode 4 0x0000000000000000000000000000000300000003 = .command (.invert 3) := by decide

theorem test_decode_iter :
    decode 4 0x0000000000000000000000000000000000000204 = .command (.iter 2) := by decide

theorem test_decode_range :
    decode 4 0x0000000000000003000000000000000100000105 = .command (.range 1 1 3) := by decide

theorem test_decode_next :
    decode 4 0x0000000000000000000000000000000000000106 = .command (.next 1) := by decide

theorem test_decode_readState :
    decode 4 0x0000000000000000000000000000000000001707 = .command (.readState (.curEnd 3)) := by decide

/-- The records of 95 2.1 that select no command, by name. -/
theorem test_decode_illegal :
    decode 4 0x0000000000000000000000000000000000000000 = .illegal .reservedOpcode ∧
    decode 4 0x0000000000000000000000000000000000000008 = .illegal .reservedOpcode ∧
    decode 4 0x00000000000000000000000000000000000000ff = .illegal .reservedOpcode ∧
    decode 4 0x0000000000000000000000000000000101000002 = .illegal .reservedField ∧
    decode 4 0x0000000000000000000000000000000100000102 = .illegal .indexField ∧
    decode 4 0x0000000000000000000000000000000100010002 = .illegal .roundField ∧
    decode 4 0x0000000000000001000000000000000400010101 = .illegal .indexField ∧
    decode 4 0x0000000000000000000000000000000000010306 = .illegal .roundField ∧
    decode 4 0x0000000000000000000000000000000000000404 = .illegal .slotOutOfRange ∧
    decode 4 0x0000000000000000000000000000000000000b07 = .illegal .unmappedIndex ∧
    decode 4 0x0000000000000000000000000000000000001807 = .illegal .unmappedIndex := by decide

/-- The encoder gives the rules' own records back. -/
theorem test_encode :
    encode (.construct 4 1 1) = 0x0000000000000001000000000000000400010001 ∧
    encode (.get 1) = 0x0000000000000000000000000000000100000002 ∧
    encode (.invert 3) = 0x0000000000000000000000000000000300000003 ∧
    encode (.iter 2) = 0x0000000000000000000000000000000000000204 ∧
    encode (.range 1 1 3) = 0x0000000000000003000000000000000100000105 ∧
    encode (.next 1) = 0x0000000000000000000000000000000000000106 ∧
    encode (.readState .b) = 0x0000000000000000000000000000000000000307 := by decide

/-- WellFormed refuses a slot or a cursor register that is not in the file, and an index past 8 bits. -/
theorem test_ill_formed :
    Instr.wf 4 (.iter 4) = false ∧ Instr.wf 4 (.range 4 0 0) = false ∧ Instr.wf 4 (.next 4) = false ∧
    Instr.wf 4 (.readState (.curPos 4)) = false ∧ Instr.wf 4 (.readState (.curEnd 255)) = false ∧
    Instr.wf 200 (.readState (.curPos 120)) = false ∧ Instr.wf 200 (.readState (.curEnd 120)) = false := by decide

/-- Every row's bare opcode decodes and is the first command a step executes after reset. -/
theorem test_table_words :
    decodeTableWord 32 1 = some (.construct 0 0 0) ∧ decodeTableWord 32 2 = some (.get 0) ∧
    decodeTableWord 32 3 = some (.invert 0) ∧ decodeTableWord 32 4 = some (.iter 0) ∧
    decodeTableWord 32 5 = some (.range 0 0 0) ∧ decodeTableWord 32 6 = some (.next 0) ∧
    decodeTableWord 32 7 = some (.readState .n) := by decide

/-- What a step answers, as the code and value of its response. -/
def answer (r : Result) : Option (Code × Word) :=
  match r with
  | .next t => some (t.response.code, t.response.value)
  | .fault _ => none
  | .refused _ => none

theorem test_first_steps :
    answer (step (State.reset.withFetchWord 32 1)) = some (.invalidDomain, 0) ∧
    answer (step (State.reset.withFetchWord 32 2)) = some (.outOfRange, 0) ∧
    answer (step (State.reset.withFetchWord 32 3)) = some (.outOfRange, 0) ∧
    answer (step (State.reset.withFetchWord 32 4)) = some (.ok, 0) ∧
    answer (step (State.reset.withFetchWord 32 5)) = some (.ok, 0) ∧
    answer (step (State.reset.withFetchWord 32 6)) = some (.endOfSequence, 0) ∧
    answer (step (State.reset.withFetchWord 32 7)) = some (.ok, 0) := by decide

/-! The datapath under the test hash -/

/-- 95 2.2: the derived registers. -/
theorem test_derive :
    (permOf 1000 7 4).b = 10 ∧ (permOf 1000 7 4).h = 5 ∧ (permOf 1000 7 4).halfMask = 0x1f ∧
    (permOf 4294967297 5 4).b = 34 ∧ (permOf 4294967297 5 4).halfMask = 0x1ffff ∧
    (permOf 0x8000000000000000 0 4).b = 64 ∧ (permOf 0x8000000000000000 0 4).halfMask = 0xffffffff := by decide +kernel

/-- 95 2.3, last row: the message bytes and F. -/
theorem test_round_function :
    messageBytes (enc 0x0123456789abcdef 2 0x89abcdef) =
      [0xef, 0xcd, 0xab, 0x89, 0x67, 0x45, 0x23, 0x01, 2, 0, 0, 0, 0, 0, 0, 0, 0xef, 0xcd, 0xab, 0x89, 0, 0, 0, 0] ∧
    roundF toy (permOf 0x8000000000000000 0x0123456789abcdef 4) 2 0x89abcdef = 0x13579be0 := by decide +kernel

/-- 42 R93: `encrypt(2) = 4`, `decrypt(4) = 2`, and 95 2.4: the four messages of `encrypt(2)`. -/
theorem test_engine :
    encrypt toy (permOf 5 3 4) 2 = 4 ∧ decrypt toy (permOf 5 3 4) 4 = 2 ∧
    stepMessages toy (permOf 5 3 4) .forward 2 = [enc 3 0 2, enc 3 1 1, enc 3 2 3, enc 3 3 1] := by decide +kernel

/-- 95 2.5: GET 4 of `N = 5` in two steps and its inverse. -/
theorem test_walk :
    walk toy (permOf 5 3 4) 512 .forward 0 = { walk toy (permOf 5 3 4) 512 .forward 0 with code := .ok, value := 0, steps := 3 } ∧
    (walk toy (permOf 5 3 4) 512 .forward 4).value = 2 ∧ (walk toy (permOf 5 3 4) 512 .forward 4).steps = 2 ∧
    (walk toy (permOf 5 3 4) 512 .inverse 2).value = 4 ∧ (walk toy (permOf 5 3 4) 512 .inverse 2).steps = 2 := by
  decide +kernel

/-! One step of each command -/

/-- 40 R74's example; the cursors are cleared. -/
theorem test_construct :
    ∃ t, exec (.construct 5 3 4) full = .next t ∧ t.perm = { n := 5, seed := 3, rounds := 4, b := 4, h := 2, halfMask := 3 } ∧
      t.cursors = [{ pos := 0, stop := 0 }, { pos := 0, stop := 0 }, { pos := 0, stop := 0 }, { pos := 0, stop := 0 }] :=
  ⟨_, rfl, by decide, by decide⟩

/-- 95 2.2: `2^63 + 1` is refused and the old Permutation stays. -/
theorem test_construct_too_large :
    ∃ t, exec (.construct 0x8000000000000001 1 4) full = .next t ∧ t.response = { code := .invalidDomain, value := 0 } ∧
      t.perm = full.perm ∧ t.cursors = full.cursors :=
  ⟨_, rfl, by decide, by decide, by decide⟩

/-- 95 P1: GET 0 … GET 3. -/
theorem test_get :
    [0, 1, 2, 3].map (fun i => answer (queryWith toy .forward i (holding 4 1 1))) =
      [some (.ok, 1), some (.ok, 2), some (.ok, 0), some (.ok, 3)] := by decide +kernel

/-- 43 R102: the cap of one step; 95 2.9: one hash transaction. -/
theorem test_get_capped :
    ∃ t, queryWith toy .forward 1 { holding 3 0 1 with walkCap := 1 } = .next t ∧
      t.response = { code := .internalInvariantViolation, value := 0 } ∧ t.status = 1 ∧ t.walkCount = 1 ∧
      t.hashSent = [enc 0 0 1] :=
  ⟨_, rfl, by decide +kernel, by decide +kernel, by decide +kernel, by decide +kernel⟩

/-- 95 P1: INVERT 0 … INVERT 3. -/
theorem test_invert :
    [0, 1, 2, 3].map (fun j => answer (queryWith toy .inverse j (holding 4 1 1))) =
      [some (.ok, 2), some (.ok, 0), some (.ok, 1), some (.ok, 3)] := by decide +kernel

/-- 95 2.6: INVERT 2 of `N = 5` takes 2 walk steps, and 8 hash transactions as GET 4 does. -/
theorem test_invert_walk :
    ∃ t, queryWith toy .inverse 2 (holding 5 3 4) = .next t ∧ t.response = { code := .ok, value := 4 } ∧
      t.walkCount = 2 ∧ t.hashSent.length = 8 :=
  ⟨_, rfl, by decide +kernel, by decide +kernel, by decide +kernel⟩

/-- 45 R106's example. -/
theorem test_iter :
    ∃ t, exec (.iter 2) full = .next t ∧ t.cursors[2]? = some { pos := 0, stop := 4 } ∧
      t.cursors[1]? = some { pos := 3, stop := 4 } :=
  ⟨_, rfl, by decide, by decide⟩

/-- 45 R107: `RANGE c, N, N` is accepted. -/
theorem test_range_empty :
    ∃ t, exec (.range 1 4 4) full = .next t ∧ t.response = { code := .ok, value := 0 } ∧
      t.cursors[1]? = some { pos := 4, stop := 4 } :=
  ⟨_, rfl, by decide, by decide⟩

/-- 95 2.7: `hi > N` although `lo = hi`. -/
theorem test_range_invalid :
    ∃ t, exec (.range 1 5 5) full = .next t ∧ t.response = { code := .invalidRange, value := 0 } ∧ t.cursors = full.cursors :=
  ⟨_, rfl, by decide, by decide⟩

/-- 95 2.7: `NEXT 1` on `(2, 4)` of `N = 5` gives GET 2 and advances. -/
theorem test_next :
    ∃ t, nextWith toy 1 { holding 5 3 4 with cursors := [{ pos := 0, stop := 5 }, { pos := 2, stop := 4 }] } = .next t ∧
      t.response = { code := .ok, value := 4 } ∧ t.cursors = [{ pos := 0, stop := 5 }, { pos := 3, stop := 4 }] ∧
      t.walkCount = 1 :=
  ⟨_, rfl, by decide +kernel, by decide +kernel, by decide +kernel⟩

/-- 60 R118: the violation keeps the cursor. -/
theorem test_next_capped :
    ∃ t, nextWith toy 0 { holding 3 0 1 with walkCap := 1, cursors := [{ pos := 1, stop := 3 }] } = .next t ∧
      t.response = { code := .internalInvariantViolation, value := 0 } ∧ t.cursors = [{ pos := 1, stop := 3 }] :=
  ⟨_, rfl, by decide +kernel, by decide +kernel⟩

/-- 95 2.8: the constants. -/
theorem test_readState_constants :
    answer (exec (.readState .walkCap) State.reset) = some (.ok, 512) ∧
    answer (exec (.readState .ncur) State.reset) = some (.ok, 4) ∧
    answer (exec (.readState .nMax) State.reset) = some (.ok, 0x8000000000000000) ∧
    answer (exec (.readState .rounds) State.reset) = some (.ok, 4) := by decide

/-- 46 R112: STATUS reads IIV alone. -/
theorem test_readState_status :
    answer (exec (.readState .status) { State.reset with status := 0xffffffffffffffff }) = some (.ok, 1) ∧
    answer (exec (.readState (.curPos 1)) full) = some (.ok, 3) := by decide

/-- 41 R82: the digest that ends the walk of 43 R102 at the cap, and one that ends it at 2. -/
theorem test_port_walk :
    answer (step (waiting 1 (digest 1))) = some (.internalInvariantViolation, 0) ∧
    answer (step (waiting 512 (digest 0))) = some (.ok, 2) := by decide +kernel

/-- 93 I2: a machine with a substituted encoding offers that encoding's message (41 R82), and its reset keeps the encoding. -/
theorem test_substituted_encoding :
    (∃ t, step { waiting 512 quietPins with encoding := .substitute, hashPhase := .hidle } = .next t ∧
      t.hashMsg = Config.encSubstitute (enc 0 0 1)) ∧
    ∃ t, step { full with encoding := .substitute, io := [{ quietPins with rst := true }] } = .next t ∧ t.encoding = .substitute :=
  ⟨⟨_, rfl, rfl⟩, ⟨_, rfl, rfl⟩⟩

/-! Witnesses: for each statement with hypotheses, values that meet them; one for each clause, at its boundary where it has one -/

theorem witness_DecodeOfEncodeIsIdentity :
    Instr.wf 4 (.range 3 0xffffffffffffffff 0) = true ∧ Instr.wf 1 (.next 0) = true ∧
    Instr.wf 120 (.readState (.curEnd 119)) = true ∧ Instr.wf 4 (.construct 0xffffffffffffffff 0 0) = true := by decide

theorem witness_DecodedCommandsAreExact :
    decode 1 0xffffffffffffffffffffffffffffffff00ff0001 = .command (.construct 0xffffffffffffffff 0xffffffffffffffff 255) ∧
    decode 1 0xffffffffffffffffffffffffffffffff00000006 = .command (.next 0) := by decide

/-- `State.reset` with the record of READ_STATE N placed. -/
theorem witness_StepRunsLatchedCommand :
    (State.reset.withFetchWord 32 7).cmdPhase = .exec ∧ (State.reset.withFetchWord 32 7).hashUnit = .contract ∧
    (State.reset.withFetchWord 32 7).pinsNow.rst = false ∧
    decode (State.reset.withFetchWord 32 7).ncur (State.reset.withFetchWord 32 7).cmdData = .command (.readState .n) := by
  decide

theorem witness_PlacedCommandRunsNext :
    decode State.reset.ncur (tableRecord 32 1) = .command (.construct 0 0 0) ∧
    decode State.reset.ncur (tableRecord 160 0x0000000000000001000000000000000400010001) = .command (.construct 4 1 1) := by
  decide

/-- One record for each way of selecting no command, at its boundary. -/
theorem witness_IllegalCommandChangesNothing :
    (latched 0 full).cmdPhase = .exec ∧ (latched 0 full).pinsNow.rst = false ∧ full.ncur = 4 ∧
    fieldOp 0 = 0 ∧ (fieldOp 8).toNat = 8 ∧ fieldRsvd 0x01000002 ≠ 0 ∧
    (fieldRnd 0x00010002 ≠ 0 ∧ fieldOp 0x00010002 ≠ 1) ∧
    (fieldIdx 0x00000101 ≠ 0 ∧ fieldOp 0x00000101 = 1) ∧ (fieldIdx 0x0103 ≠ 0 ∧ fieldOp 0x0103 = 3) ∧
    ((fieldIdx 0x0404).toNat = 4 ∧ fieldOp 0x0404 = 4) ∧ ((fieldIdx 0x0406).toNat = 4 ∧ fieldOp 0x0406 = 6) ∧
    (fieldOp 0x0b07 = 7 ∧ (fieldIdx 0x0b07).toNat = 0x0b) ∧ (fieldOp 0x0f07 = 7 ∧ (fieldIdx 0x0f07).toNat = 0x0f) ∧
    (fieldOp 0x1807 = 7 ∧ (fieldIdx 0x1807).toNat = 0x18 ∧ (0x18 - 0x10) / 2 = full.ncur) := by decide

theorem witness_HandshakesMoveThePhase :
    (∀ v, ({ full with io := [{ quietPins with cmdValid := v }] } : State).pinsNow.rst = false ∧
      ({ full with io := [{ quietPins with cmdValid := v }] } : State).cmdPhase = .idle ∧
      ({ full with io := [{ quietPins with cmdValid := v }] } : State).pinsNow.cmdValid = v) ∧
    (∀ v, ({ full with cmdPhase := .resp, io := [{ quietPins with rspReady := v }] } : State).pinsNow.rst = false ∧
      ({ full with cmdPhase := .resp, io := [{ quietPins with rspReady := v }] } : State).pinsNow.rspReady = v) := by decide

/-- An edge with rst = 1 in the middle of a walk; and another state with the same constants and surroundings. -/
theorem witness_ResetEdgeRestoresResetValues :
    (waiting 512 { quietPins with rst := true }).pinsNow.rst = true ∧
    (let s := waiting 512 { quietPins with rst := true }
     let s' := { s with perm := permOf 5 3 4, status := 1, cmdPhase := .idle, cmdData := 0, response := { code := .ok, value := 7 } }
     s' ≠ s ∧ s'.walkCap = s.walkCap ∧ s'.ncur = s.ncur ∧ s'.encoding = s.encoding ∧ s'.hashUnit = s.hashUnit ∧ s'.hashSent = s.hashSent ∧ s'.io = s.io) := by
  decide +kernel

theorem witness_ResetIsLegal :
    ((1 : Word) ≠ 0 ∧ 1 ≤ 1 ∧ 1 ≤ Config.ncurMax) ∧ ((0xffffffffffffffff : Word) ≠ 0 ∧ 1 ≤ 120 ∧ 120 ≤ Config.ncurMax) := by
  decide

/-- The state in the middle of a walk, the hash unit on its pins, is legal. -/
theorem legal_waiting (cap : Word) (hc : cap ≠ 0) (e : PortIn) : (waiting cap e).Legal where
  cap_ne := hc
  ncur_pos := (by decide : 1 ≤ 4)
  ncur_le := (by decide : 4 ≤ 120)
  perm := permOf_legal (by decide) (by decide)
  status := by simp only [waiting, latched, holding]; decide
  walkCount := by rw [BitVec.le_def]; exact Nat.zero_le _
  cursors := fun cur h => by
    have : cur = { pos := 0, stop := 0 } := List.eq_of_mem_replicate h
    subst this
    exact ⟨by decide, by rw [BitVec.le_def]; exact Nat.zero_le _⟩
  response := fun _ => rfl
  hash := fun _ => rfl
  walk := fun _ =>
    { phase := rfl
      request := ⟨.get 1, .forward, 1,
        (by decide +kernel : decode 4 0x0000000000000000000000000000000100000002 = .command (.get 1)),
        (by decide +kernel : (holding 3 0 1).walkRequest (.get 1) = some (.forward, 1))⟩
      k_lt := by
        have h : cap.toNat ≠ 0 := fun h => hc (BitVec.eq_of_toNat_eq h)
        rw [BitVec.lt_def]
        exact Nat.pos_of_ne_zero h
      r_lt := by simp only [waiting, latched, holding]; decide
      lh_le := by simp only [waiting, latched, holding]; decide +kernel
      rh_le := by simp only [waiting, latched, holding]; decide +kernel }

theorem witness_StepKeepsLegal : (waiting 512 (digest 1)).Legal ∧ ∃ t, step (waiting 512 (digest 1)) = .next t :=
  ⟨legal_waiting _ (by decide) _, (step_total _).imp fun _ h => h.1⟩

/-- Both ways the Permutation changes: an accepted CONSTRUCT and a reset edge. -/
theorem witness_PermutationChangesOnlyByConstructOrReset :
    (∃ t, step (latched 0x0000000000000001000000000000000400010001 State.reset) = .next t ∧ t.perm ≠ State.reset.perm) ∧
    ∃ t, step { full with io := [{ quietPins with rst := true }] } = .next t ∧ t.perm ≠ full.perm :=
  ⟨⟨_, rfl, by decide +kernel⟩, ⟨_, rfl, by decide +kernel⟩⟩

theorem witness_IivIsStickyAndSetByWalksOnly :
    (∃ t, step { full with status := 1 } = .next t ∧ ({ full with status := 1 } : State).pinsNow.rst = false ∧
      ({ full with status := 1 } : State).iiv = true) ∧
    ∃ t, step (waiting 1 (digest 1)) = .next t ∧ (waiting 1 (digest 1)).pinsNow.rst = false ∧
      (waiting 1 (digest 1)).iiv = false ∧ t.iiv = true :=
  ⟨⟨_, rfl, by decide, by decide⟩, ⟨_, rfl, by decide, by decide +kernel, by decide +kernel⟩⟩

theorem witness_ConstantsHaveNoWriter : ∃ t, step { full with io := [{ quietPins with rst := true }] } = .next t := ⟨_, rfl⟩

theorem witness_ConstructLoadsThePermutation :
    (0x8000000000000000 : Word) ≤ Config.nMax ∧ (255 : Byte) ≠ 0 ∧ (0 : Word) ≤ Config.nMax ∧ (1 : Byte) ≠ 0 := by decide

theorem witness_ConstructRejectsBadDomain :
    Config.nMax < (0x8000000000000001 : Word) ∧ (0 : Byte) = 0 ∧ (0x8000000000000000 : Word).toNat ≤ 2 ^ 63 ∧ (255 : Byte) ≠ 0 := by
  decide

theorem witness_EmptyDomainPolicy :
    (1 : Byte) ≠ 0 ∧ (3 : Byte).toNat < full.ncur ∧ ¬ ((0 : Word) = 0 ∧ (1 : Word) = 0) := by decide

theorem witness_StaleCursorsAreExhausted :
    (3 : Byte).toNat < full.ncur ∧ ∃ t, exec (.construct 5 3 4) full = .next t ∧ t.response.code = .ok :=
  ⟨by decide, _, rfl, by decide⟩

theorem witness_GeometryBounds : 2 ≤ 2 ∧ 2 ≤ 2 ^ 63 ∧ 2 ^ 63 ≤ 2 ^ 63 ∧ 0 ≤ 2 ^ 63 := by decide

theorem witness_EncodingIsLittleEndianAndInjective : enc 0xffffffffffffffff 254 0xffffffff = enc 0xffffffffffffffff 254 0xffffffff := rfl

/-- Another layout, the fields in the opposite order, read back field by field. -/
theorem opposite_layout (seed : Word) (r : Byte) (x : Half) :
    (seed ++ r.setWidth 64 ++ x.setWidth 64).extractLsb' 128 64 = seed ∧
    (seed ++ r.setWidth 64 ++ x.setWidth 64).extractLsb' 64 8 = r ∧
    (seed ++ r.setWidth 64 ++ x.setWidth 64).extractLsb' 0 32 = x := by
  refine ⟨?_, ?_, ?_⟩ <;> ext i hi
  · simp; grind
  · simp; grind
  · simp; grind

/-- Equal messages of a substituted encoding, a machine with the default one, and the other layout, which is injective. -/
theorem witness_EncodingParameterIsAnyInjectiveEncoding :
    ({ full with encoding := .substitute } : State).hashPort.enc 0 254 1 = ({ full with encoding := .substitute } : State).hashPort.enc 0 254 1 ∧
    full.encoding = .littleEndian ∧
    ∀ (seed seed' : Word) (r r' : Byte) (x x' : Half),
      seed ++ r.setWidth 64 ++ x.setWidth 64 = seed' ++ r'.setWidth 64 ++ x'.setWidth 64 → seed = seed' ∧ r = r' ∧ x = x' := by
  refine ⟨rfl, rfl, fun seed seed' r r' x x' h => ?_⟩
  obtain ⟨h1, h2, h3⟩ := opposite_layout seed r x
  obtain ⟨h1', h2', h3'⟩ := opposite_layout seed' r' x'
  rw [h] at h1 h2 h3
  exact ⟨h1.symm.trans h1', h2.symm.trans h2', h3.symm.trans h3'⟩

theorem legal_five : (permOf 5 3 4).Legal := permOf_legal (by decide) (by decide)

theorem witness_RoundFunctionKeepsLowBits : (permOf 5 3 4).Legal ∧ (permOf 0x8000000000000000 0 255).Legal :=
  ⟨legal_five, permOf_legal (by decide) (by decide)⟩

/-- The greatest value F can have. -/
theorem witness_AnyRoundFunctionIsSomeHash :
    (permOf 5 3 4).Legal ∧ ∀ (_ : Word) (_ : Byte) (_ : Half), (3 : Half) ≤ (permOf 5 3 4).halfMask :=
  ⟨legal_five, fun _ _ _ => by decide +kernel⟩

theorem witness_BlockHalvesAreQuotientAndRemainder :
    (permOf 5 3 4).Legal ∧ (15 : Word).toNat < 2 ^ (permOf 5 3 4).b.toNat ∧
    ({ lh := 3, rh := 3 } : Lanes).lh ≤ (permOf 5 3 4).halfMask ∧ ({ lh := 3, rh := 3 } : Lanes).rh ≤ (permOf 5 3 4).halfMask :=
  ⟨legal_five, by decide +kernel, by decide +kernel, by decide +kernel⟩

theorem witness_EngineStaysInRange : (permOf 5 3 4).Legal ∧ (15 : Word).toNat < 2 ^ (permOf 5 3 4).b.toNat :=
  ⟨legal_five, by decide +kernel⟩

theorem witness_DecryptInvertsEncrypt : (permOf 1 3 4).Legal ∧ (0 : Word).toNat < 2 ^ (permOf 1 3 4).b.toNat :=
  ⟨permOf_legal (by decide) (by decide), by decide +kernel⟩

/-- On `N = 4 = 2^B` every step of either function lands below N, whatever the hash. -/
theorem step_below_four (u : HashPort) (d : Direction) (x : Word) (hx : x < 4) : applyStep u (permOf 4 1 1) d x < 4 := by
  have hp : (permOf 4 1 1).Legal := permOf_legal (by decide) (by decide)
  have hb : 2 ^ (permOf 4 1 1).b.toNat = 4 := by decide +kernel
  have h := applyStep_lt u hp d (x := x) (by rw [hb]; rw [BitVec.lt_def] at hx; exact hx)
  rw [hb] at h
  rw [BitVec.lt_def]
  exact h

theorem full_b : full.perm.b ≠ 0 := by decide +kernel

/-- `j = 1 = WALK_CAP`. -/
theorem witness_GetAnswersTheFirstReturn :
    full.perm.b ≠ 0 ∧ (3 : Word) < full.perm.n ∧ 1 ≤ 1 ∧ 1 ≤ ({ full with walkCap := 1 } : State).walkCap.toNat ∧
    (encrypt full.hashPort full.perm)^[1] 3 < full.perm.n ∧
    ∀ m, 1 ≤ m → m < 1 → full.perm.n ≤ (encrypt full.hashPort full.perm)^[m] 3 :=
  ⟨full_b, by decide, by decide, by decide, step_below_four full.hashPort .forward 3 (by decide), fun m h1 h2 => by omega⟩

theorem witness_InvertAnswersTheFirstReturn :
    full.perm.b ≠ 0 ∧ (3 : Word) < full.perm.n ∧ 1 ≤ 1 ∧ 1 ≤ ({ full with walkCap := 1 } : State).walkCap.toNat ∧
    (decrypt full.hashPort full.perm)^[1] 3 < full.perm.n ∧
    ∀ m, 1 ≤ m → m < 1 → full.perm.n ≤ (decrypt full.hashPort full.perm)^[m] 3 :=
  ⟨full_b, by decide, by decide, by decide, step_below_four full.hashPort .inverse 3 (by decide), fun m h1 h2 => by omega⟩

theorem witness_NextPullsAndAdvances :
    full.cursors[(1 : Byte).toNat]? = some { pos := 3, stop := 4 } ∧ (3 : Word) < 4 ∧ full.perm.b ≠ 0 ∧ 1 ≤ 1 ∧
    1 ≤ full.walkCap.toNat ∧ (encrypt full.hashPort full.perm)^[1] 3 < full.perm.n ∧
    ∀ m, 1 ≤ m → m < 1 → full.perm.n ≤ (encrypt full.hashPort full.perm)^[m] 3 :=
  ⟨by decide, by decide, full_b, by decide, by decide, step_below_four full.hashPort .forward 3 (by decide), fun m h1 h2 => by omega⟩

theorem witness_TrivialWalkIsTheIdentity :
    (holding 1 9 4).perm.b = 0 ∧ (0 : Word) < (holding 1 9 4).perm.n ∧
    ({ holding 1 9 4 with cursors := [{ pos := 0, stop := 1 }] } : State).cursors[(0 : Byte).toNat]? = some { pos := 0, stop := 1 } ∧
    (0 : Word) < 1 := by decide +kernel

/-- On `N = 2` with one round a block whose right half is 1 leaves the domain in one step. -/
theorem encrypt_leaves (u : HashPort) : (2 : Word) ≤ encrypt u (permOf 2 0 1) 1 := by
  have hp : (permOf 2 0 1).Legal := permOf_legal (by decide) (by decide)
  have hs : splitBlock (permOf 2 0 1) 1 = { lh := 0, rh := 1 } := by decide +kernel
  have hf : LanesFit (permOf 2 0 1) (splitBlock (permOf 2 0 1) 1) := splitBlock_fit hp 1 (by decide +kernel)
  have hh : (permOf 2 0 1).h.toNat = 1 := by decide +kernel
  have e := toNat_packBlock hp (roundsForward_fit u hp (permOf 2 0 1).rounds.toNat hf)
  have hl : (roundsForward u (permOf 2 0 1) (permOf 2 0 1).rounds.toNat (splitBlock (permOf 2 0 1) 1)).lh = 1 := by
    rw [hs]; rfl
  rw [BitVec.le_def]
  show 2 ≤ (packBlock _ _).toNat
  rw [e, hl, hh]
  exact Nat.le_add_right _ _

/-- And one of the two blocks of the domain leaves it in one step of decrypt. -/
theorem decrypt_leaves (u : HashPort) : ∃ x : Word, x < 2 ∧ 2 ≤ decrypt u (permOf 2 0 1) x := by
  have hp : (permOf 2 0 1).Legal := permOf_legal (by decide) (by decide)
  have hg : roundF u (permOf 2 0 1) 0 0 ≤ 1 := reduceDigest_le hp _
  have hs0 : splitBlock (permOf 2 0 1) 0 = { lh := 0, rh := 0 } := by decide +kernel
  have hs1 : splitBlock (permOf 2 0 1) 1 = { lh := 0, rh := 1 } := by decide +kernel
  have e0 : decrypt u (permOf 2 0 1) 0 = packBlock (permOf 2 0 1) { lh := 0 ^^^ roundF u (permOf 2 0 1) 0 0, rh := 0 } := by
    rw [decrypt, hs0]; rfl
  have e1 : decrypt u (permOf 2 0 1) 1 = packBlock (permOf 2 0 1) { lh := 1 ^^^ roundF u (permOf 2 0 1) 0 0, rh := 0 } := by
    rw [decrypt, hs1]; rfl
  rcases (show roundF u (permOf 2 0 1) 0 0 = 0 ∨ roundF u (permOf 2 0 1) 0 0 = 1 by
    rw [BitVec.le_def] at hg
    rcases (show (roundF u (permOf 2 0 1) 0 0).toNat = 0 ∨ (roundF u (permOf 2 0 1) 0 0).toNat = 1 by
      have : (1 : Half).toNat = 1 := rfl
      omega) with h | h
    · exact .inl (BitVec.eq_of_toNat_eq h)
    · exact .inr (BitVec.eq_of_toNat_eq h)) with h | h
  · exact ⟨1, by decide, by rw [e1, h]; decide +kernel⟩
  · exact ⟨0, by decide, by rw [e0, h]; decide +kernel⟩

/-- `N = 2`, a cap of one step, and a cursor at position 1. -/
def two : State := { holding 2 0 1 with walkCap := 1, cursors := [{ pos := 1, stop := 2 }] }

theorem witness_CappedWalksReportTheViolation :
    two.perm.b ≠ 0 ∧
    ((1 : Word) < two.perm.n ∧ ∀ m, 1 ≤ m → m ≤ two.walkCap.toNat → two.perm.n ≤ (encrypt two.hashPort two.perm)^[m] 1) ∧
    (∃ x : Word, x < two.perm.n ∧ ∀ m, 1 ≤ m → m ≤ two.walkCap.toNat → two.perm.n ≤ (decrypt two.hashPort two.perm)^[m] x) ∧
    two.cursors[(0 : Byte).toNat]? = some { pos := 1, stop := 2 } ∧ (1 : Word) < 2 := by
  have hcap : two.walkCap.toNat = 1 := by decide
  refine ⟨by decide +kernel, ⟨by decide, fun m h1 h2 => ?_⟩, ?_, by decide, by decide⟩
  · rw [show m = 1 by omega]; exact encrypt_leaves two.hashPort
  · obtain ⟨x, hx, h⟩ := decrypt_leaves two.hashPort
    exact ⟨x, hx, fun m h1 h2 => by rw [show m = 1 by omega]; exact h⟩

theorem witness_QueriesOutOfRangeChangeNothing : (holding 5 3 4).perm.n ≤ (5 : Word) ∧ State.reset.perm.n ≤ (0 : Word) := by decide

theorem witness_InverseWalkRetracesTheWalk :
    (permOf 5 3 4).Legal ∧ (4 : Word) < (permOf 5 3 4).n ∧ (walk toy (permOf 5 3 4) 512 .forward 4).code = .ok ∧
    (walk toy (permOf 5 3 4) 512 .inverse 4).code = .ok :=
  ⟨legal_five, by decide, by decide +kernel, by decide +kernel⟩

/-- The cap at the bound `2^B − N + 1 = 12` of `N = 5`, and `N = 170`. -/
theorem witness_EnoughCapExcludesTheViolation :
    (permOf 5 3 4).Legal ∧ (4 : Word) < (permOf 5 3 4).n ∧
    2 ^ (permOf 5 3 4).b.toNat - (permOf 5 3 4).n.toNat + 1 ≤ (12 : Word).toNat ∧
    (walk toy (permOf 5 3 4) 12 .forward 4).code = .ok ∧
    (permOf 170 0 4).Legal ∧ (169 : Word) < (permOf 170 0 4).n ∧ (permOf 170 0 4).n.toNat ≤ 170 ∧ (512 : Word).toNat = 512 :=
  ⟨legal_five, by decide, by decide +kernel, by decide +kernel, permOf_legal (by decide) (by decide), by decide, by decide, rfl⟩

theorem witness_WalkStepsAddUpToTheBlockSpace : (permOf 1 0 4).Legal ∧ 1 ≤ (permOf 1 0 4).n.toNat :=
  ⟨permOf_legal (by decide) (by decide), by decide⟩

theorem legal_full : full.Legal where
  cap_ne := by decide
  ncur_pos := by decide
  ncur_le := by decide
  perm := permOf_legal (by decide) (by decide)
  status := by decide
  walkCount := by decide
  cursors := by decide
  response := fun _ => rfl
  hash := fun h => absurd rfl h
  walk := fun h => by cases h

/-- Every GET of `full` answers OK, whatever the hash. -/
theorem full_get (i : Word) (hi : i < 4) : ∃ v, responseTo (.get i) full = some { code := .ok, value := v } := by
  have hfr : FirstReturn full.hashPort full.perm .forward i 1 :=
    ⟨by decide, step_below_four full.hashPort .forward i hi, fun m h1 h2 => by omega⟩
  obtain ⟨hc, -, -⟩ := walk_of_firstReturn (cap := full.walkCap) full_b hfr (by decide)
  refine ⟨(walk full.hashPort full.perm full.walkCap .forward i).value, ?_⟩
  unfold responseTo
  rw [show exec (.get i) full = queryWith full.hashPort .forward i full from rfl, queryWith,
    if_neg (show ¬ full.perm.n ≤ i from fun h => not_lt_of_word_le h hi)]
  simp only [State.closeQuery, State.respond_response, hc]

theorem witness_GetIsABijectionInvertedByInvert :
    full.perm.Legal ∧ (∀ i, i < full.perm.n → ∃ v, responseTo (.get i) full = some { code := .ok, value := v }) ∧
    (3 : Word) < full.perm.n :=
  ⟨legal_full.perm, full_get, by decide⟩

theorem witness_IterOpensTheWholeDomain : (3 : Byte).toNat < full.ncur := by decide

/-- `(N, N)` and `(0, N)`. -/
theorem witness_RangeOpensTheInterval :
    (3 : Byte).toNat < full.ncur ∧ ((4 : Word) ≤ 4 ∧ (4 : Word) ≤ full.perm.n) ∧ (0 : Word) ≤ 4 := by decide

/-- `lo = hi + 1`, and `lo = hi = N + 1`. -/
theorem witness_RangeRejectsBadIntervals :
    (3 : Byte).toNat < full.ncur ∧ (2 : Word) < 3 ∧ full.perm.n < (5 : Word) := by decide

theorem witness_NextAtTheEndChangesNothing :
    full.cursors[(2 : Byte).toNat]? = some { pos := 4, stop := 4 } ∧ (4 : Word) ≤ 4 := by decide

theorem witness_SlotsOutsideTheFileAreIllegal :
    full.ncur ≤ (4 : Byte).toNat ∧ full.ncur ≤ (255 : Byte).toNat := by decide

theorem witness_NextsYieldTheGetsInOrder :
    full.Legal ∧ full.cursors[(0 : Byte).toNat]? = some { pos := 0, stop := 4 } ∧ (0 : Word).toNat + 4 ≤ (4 : Word).toNat ∧
    ∀ j, j < 4 → ∃ v, responseTo (.get (0 + BitVec.ofNat 64 j)) full = some { code := .ok, value := v } :=
  ⟨legal_full, by decide, by decide, fun j hj => full_get _ (by
    rw [BitVec.lt_def, BitVec.toNat_add, BitVec.toNat_ofNat]
    have : (4 : Word).toNat = 4 := rfl
    have : (0 : Word).toNat = 0 := rfl
    omega)⟩

theorem witness_IterationYieldsEveryElementOnce :
    full.Legal ∧ (3 : Byte).toNat < full.ncur ∧
    ∀ i, i < full.perm.n → ∃ v, responseTo (.get i) full = some { code := .ok, value := v } :=
  ⟨legal_full, by decide, full_get⟩

theorem witness_ReadStateReturnsEachRegister :
    StateReg.wf full.ncur (.curEnd 3) = true ∧ StateReg.wf full.ncur .nMax = true ∧
    StateReg.wf 120 (.curPos 119) = true := by decide

theorem witness_QueryFrame :
    (∃ t, exec (.get 3) full = .next t) ∧ (∃ t, exec (.invert 3) full = .next t) ∧ ∃ t, exec (.readState .status) full = .next t :=
  ⟨⟨_, rfl⟩, ⟨_, rfl⟩, ⟨_, rfl⟩⟩

theorem witness_CursorFrame :
    (∃ t, exec (.iter 1) full = .next t) ∧ (∃ t, exec (.range 1 0 4) full = .next t) ∧
    ∃ t, exec (.next 1) full = .next t ∧ ∃ cur cur', full.cursors[(1 : Byte).toNat]? = some cur ∧ t.cursors[(1 : Byte).toNat]? = some cur' :=
  ⟨⟨_, rfl⟩, ⟨_, rfl⟩, ⟨_, rfl, _, _, rfl, rfl⟩⟩

theorem witness_HashTransactionsPerCommand :
    (∃ t, exec (.get 3) full = .next t) ∧ ∃ t, exec (.next 2) full = .next t ∧ t.response.code = .endOfSequence :=
  ⟨⟨_, rfl⟩, ⟨_, rfl, by decide⟩⟩

theorem witness_ResultsIgnoreObservationAndHiddenState :
    (∀ reg, Instr.get 3 ≠ .readState reg) ∧ full ≠ { full with status := 1, walkCount := 9 } ∧
    full.encoding = ({ full with status := 1, walkCount := 9 } : State).encoding ∧
    (∃ t, exec (.get 3) full = .next t) ∧ ∃ t, exec (.get 3) { full with status := 1, walkCount := 9 } = .next t :=
  ⟨fun _ h => (by cases h), by decide +kernel, rfl, ⟨_, rfl⟩, ⟨_, rfl⟩⟩

/-- A walk under way, in each hash phase. -/
theorem witness_HashTransactionPhases :
    ∀ v, (waiting 512 { quietPins with hashRspValid := v }).hashUnit = .pins ∧
      (waiting 512 { quietPins with hashRspValid := v }).cmdPhase = .exec ∧
      (waiting 512 { quietPins with hashRspValid := v }).pinsNow.rst = false ∧
      (waiting 512 { quietPins with hashRspValid := v }).walking = true ∧
      decode (waiting 512 { quietPins with hashRspValid := v }).ncur (waiting 512 { quietPins with hashRspValid := v }).cmdData =
        .command (.get 1) ∧
      (waiting 512 { quietPins with hashRspValid := v }).walkRequest (.get 1) = some (.forward, 1) ∧
      (waiting 512 { quietPins with hashRspValid := v }).hashPhase = .hwait ∧
      (waiting 512 { quietPins with hashRspValid := v }).pinsNow.hashRspValid = v ∧
      ({ waiting 512 quietPins with hashPhase := .hreq } : State).walkRequest (.get 1) = some (.forward, 1) ∧
      ({ waiting 512 quietPins with hashPhase := .hidle } : State).walkRequest (.get 1) = some (.forward, 1) := by
  decide +kernel

theorem witness_UnsolicitedDigestIsIgnored :
    ({ waiting 512 quietPins with hashPhase := .hreq } : State).hashPhase ≠ .hwait ∧ full.hashPhase ≠ .hwait := by decide

/-- A silent edge in HWAIT, and in HREQ. -/
theorem witness_SilentHashUnitStallsTheCommand :
    (waiting 512 quietPins).hashUnit = .pins ∧ (waiting 512 quietPins).cmdPhase = .exec ∧ (waiting 512 quietPins).walking = true ∧
    decode (waiting 512 quietPins).ncur (waiting 512 quietPins).cmdData = .command (.get 1) ∧
    (waiting 512 quietPins).walkRequest (.get 1) = some (.forward, 1) ∧
    (∀ e ∈ (waiting 512 quietPins).io, e.rst = false) ∧
    ((waiting 512 quietPins).hashPhase = .hwait ∧ ∀ e ∈ (waiting 512 quietPins).io, e.hashRspValid = false) ∧
    (({ waiting 512 quietPins with hashPhase := .hreq } : State).hashPhase = .hreq ∧
      ∀ e ∈ ({ waiting 512 quietPins with hashPhase := .hreq } : State).io, e.hashReqReady = false) := by decide +kernel

/-- A digest that ends the walk with OK, and one that ends it at the cap. -/
theorem witness_AnyDigestsGiveALawfulAnswer :
    ((waiting 512 (digest 0)).Legal ∧ (waiting 512 (digest 0)).hashUnit = .pins ∧ (waiting 512 (digest 0)).walking = true ∧
      (waiting 512 (digest 0)).pinsNow.rst = false ∧
      ∃ t, step (waiting 512 (digest 0)) = .next t ∧ t.cmdPhase = .resp ∧ t.response.code = .ok) ∧
    ((waiting 1 (digest 1)).Legal ∧ (waiting 1 (digest 1)).hashUnit = .pins ∧ (waiting 1 (digest 1)).walking = true ∧
      (waiting 1 (digest 1)).pinsNow.rst = false ∧
      ∃ t, step (waiting 1 (digest 1)) = .next t ∧ t.cmdPhase = .resp ∧ t.response.code = .internalInvariantViolation) :=
  ⟨⟨legal_waiting _ (by decide) _, rfl, rfl, rfl, _, rfl, by decide +kernel, by decide +kernel⟩,
    legal_waiting _ (by decide) _, rfl, rfl, rfl, _, rfl, by decide +kernel, by decide +kernel⟩

/-- `GET 3` of `full` just latched, the hash unit on its pins, the input samples `es` to come. -/
def asked (es : List PortIn) : State :=
  { latched 0x0000000000000000000000000000000300000002 full with hashUnit := .pins, io := es }

theorem legal_asked (es : List PortIn) : (asked es).Legal :=
  { legal_full with walk := fun h => by cases h }

/-- The round's message and the four edges of the walk: start, request, transfer, digest. -/
def askedMessage : Message := enc 1 0 1

/-- The state before the digest. -/
def pending : State :=
  { asked [digest (Config.hash askedMessage)] with
    walking := true
    dp := { x := 3, k := 0, r := 0, lanes := { lh := 1, rh := 1 } }
    hashPhase := .hwait
    hashMsg := askedMessage
    hashSent := [askedMessage] }

/-- The digest of the only round ends the walk with OK, whatever it is. -/
theorem served_pending : ∃ t, step pending = .next t ∧ t.cmdPhase = .resp := by
  have hfit : LanesFit full.perm { lh := 1, rh := 1 } := ⟨by decide +kernel, by decide +kernel⟩
  have hlt := packBlock_lt legal_full.perm
    (mixRound_fit legal_full.perm .forward (Config.hash askedMessage) hfit)
  have hb : 2 ^ full.perm.b.toNat = 4 := by decide +kernel
  rw [hb] at hlt
  refine ⟨_, step_of_walking (i := .get 3) (d := .forward) (x0 := 3) rfl rfl rfl rfl rfl rfl, ?_⟩
  show (pending.tick.takeDigest (.get 3) .forward (Config.hash askedMessage)).cmdPhase = .resp
  rcases State.takeDigest_cases (.get 3) .forward (Config.hash askedMessage) pending.tick with ⟨h, -⟩ | ⟨-, -, h⟩ | ⟨-, h, -⟩
  · exact absurd rfl h
  · rw [h]; exact (State.closeWalk_keeps _ _ _).2.2.2.1
  · exact absurd (BitVec.lt_def.2 hlt) h

/-- A prompt hash unit's four edges. -/
def askedEdges : List PortIn :=
  [quietPins, quietPins, { quietPins with hashReqReady := true }, digest (Config.hash askedMessage)]

theorem witness_PortWalkRefinesExec :
    (asked askedEdges).Legal ∧ (asked askedEdges).hashUnit = .pins ∧ (asked askedEdges).cmdPhase = .exec ∧
    (asked askedEdges).walking = false ∧ decode (asked askedEdges).ncur (asked askedEdges).cmdData = .command (.get 3) ∧
    ∃ t, Served Config.hash 4 (asked askedEdges) t ∧ t.cmdPhase = .resp := by
  obtain ⟨t, h, ht⟩ := served_pending
  refine ⟨legal_asked _, rfl, rfl, rfl, rfl, t, ?_, ht⟩
  refine .edge rfl ⟨rfl, fun h => by cases h⟩ rfl ?_
  refine .edge rfl ⟨rfl, fun h => by cases h⟩ rfl ?_
  refine .edge rfl ⟨rfl, fun h => by cases h⟩ rfl ?_
  exact .edge (s := pending) rfl ⟨rfl, fun _ _ => rfl⟩ h (.here t)

theorem witness_PromptHashUnitCompletesEveryCommand :
    (asked []).Legal ∧ (asked []).hashUnit = .pins ∧ (asked []).cmdPhase = .exec ∧ (asked []).walking = false ∧
    decode (asked []).ncur (asked []).cmdData = .command (.get 3) :=
  ⟨legal_asked _, rfl, rfl, rfl, rfl⟩

theorem witness_SurroundingsAreNotWritten : ∃ t, step (asked askedEdges) = .next t := ⟨_, rfl⟩

end Sys2Proof.Tests
end

/-! SUPPORT. The reset state and every step are legal (10_state.md R21-R35, 70_reset_and_hazards.md R132): one lemma for each thing a
step can do, then the obligations O12 and O13. -/

namespace Sys2Proof.Machine

theorem word_zero_le (x : Word) : 0 ≤ x := Nat.zero_le x.toNat

/-- Settles O12: every register holds its reset value, and no walk is under way. -/
theorem resetIsLegal : Obligations.ResetIsLegal := by
  intro cap ncur en hcap hpos hle
  have hncur : (State.resetWith cap ncur en).ncur = ncur := List.length_replicate
  exact {
    cap_ne := hcap
    ncur_pos := by rw [hncur]; exact hpos
    ncur_le := by rw [hncur]; exact hle
    perm := permOf_legal (n := 0) (seed := 0) (rounds := 4) (by decide) (by decide)
    status := by simp [State.resetWith]
    walkCount := word_zero_le _
    cursors := fun cur hcur => by
      rw [List.eq_of_mem_replicate hcur]
      exact ⟨word_zero_le _, word_zero_le _⟩
    response := fun _ => rfl
    hash := fun h => absurd rfl h
    walk := nofun }

/-- A reset edge leads to the reset state but for what lies outside PRS-CORE. -/
theorem State.Legal.resetEdge {s : State} (hs : s.Legal) : s.resetEdge.Legal :=
  have h := resetIsLegal s.walkCap s.ncur s.encoding hs.cap_ne hs.ncur_pos hs.ncur_le
  { h with walk := nofun }

/-- Outside EXEC no walk is under way, and so no hash transaction is. -/
theorem State.Legal.quiet {s : State} (hs : s.Legal) (hp : s.cmdPhase ≠ .exec) :
    s.walking = false ∧ s.hashPhase = .hidle := by
  have hk : ¬ s.walking = true := fun h => hp (hs.walk h).phase
  exact ⟨Bool.eq_false_iff.2 hk, not_not.1 fun h => hk (hs.hash h)⟩

theorem State.Legal.accept {s : State} (hs : s.Legal) (hp : s.cmdPhase ≠ .exec) (w : Record) : (s.accept w).Legal :=
  { hs with
    hash := fun h => absurd (hs.quiet hp).2 h
    walk := nofun }

theorem State.Legal.release {s : State} (hs : s.Legal) (hp : s.cmdPhase ≠ .exec) : s.release.Legal :=
  { hs with
    hash := fun h => absurd (hs.quiet hp).2 h
    walk := fun h => absurd ((hs.quiet hp).1.symm.trans h) Bool.false_ne_true }

/-- An accepted CONSTRUCT: the new Permutation is legal, and a cleared cursor fits every N. -/
theorem State.Legal.construct {s : State} (hs : s.Legal) {n seed : Word} {rounds : Byte} (hn : n ≤ Config.nMax)
    (hr : rounds ≠ 0) : (State.respond .ok 0 (State.clearCursors { s with perm := permOf n seed rounds })).Legal where
  cap_ne := hs.cap_ne
  ncur_pos := by rw [State.ncur_respond, State.ncur_clearCursors]; exact hs.ncur_pos
  ncur_le := by rw [State.ncur_respond, State.ncur_clearCursors]; exact hs.ncur_le
  perm := permOf_legal hn hr
  status := hs.status
  walkCount := hs.walkCount
  cursors := fun cur hcur => by
    obtain ⟨_, -, rfl⟩ := List.mem_map.1 hcur
    exact ⟨word_zero_le _, word_zero_le _⟩
  response := fun h => absurd rfl h
  hash := fun h => absurd rfl h
  walk := nofun

theorem State.Legal.openCursor {s : State} (hs : s.Legal) (c : Byte) {lo hi : Word} (hlo : lo ≤ hi)
    (hhi : hi ≤ s.perm.n) : (s.openCursor c lo hi).Legal :=
  (hs.respond .ok 0 fun _ => rfl).setCursor rfl c { pos := lo, stop := hi } ⟨hlo, hhi⟩

/-- The end of a walk under WALK_CAP: its step count is at most WALK_CAP. -/
theorem legal_closeWalk_walk {s : State} (hs : s.Legal) (i : Instr) (u : HashPort) (d : Direction) (x : Word)
    (hreq : ∀ c cur, i = .next c → s.cursor? c = some cur → cur.pos < cur.stop) :
    (s.closeWalk i (walk u s.perm s.walkCap d x)).Legal := by
  refine hs.closeWalk i _ (fun hne => ?_) ?_ hreq
  · obtain h | ⟨-, h⟩ := walk_code u s.perm s.walkCap d x
    · exact absurd h hne
    · exact h
  · rw [BitVec.le_def, toNat_walk_steps]
    exact walk_steps_le u s.perm s.walkCap d x

/-- Every command keeps the legal states. -/
theorem Effect.legal {s t : State} {i : Instr} (hs : s.Legal) (h : Effect s i t) : t.Legal := by
  cases h with
  | raise => exact hs.respond _ 0 fun _ => rfl
  | construct hn hr => exact hs.construct hn hr
  | @get x hx => exact legal_closeWalk_walk hs (.get x) _ _ _ nofun
  | @invert x hx => exact legal_closeWalk_walk hs (.invert x) _ _ _ nofun
  | @iter c hc => exact hs.openCursor c (word_zero_le _) (BitVec.le_refl _)
  | @range c lo hi hc hlo hhi => exact hs.openCursor c hlo hhi
  | @next c cur hc hlt =>
    rw [← State.closeWalk_next hc]
    refine legal_closeWalk_walk hs (.next c) _ _ _ fun c' cur' hi hc' => ?_
    cases hi
    cases hc.symm.trans hc'
    exact hlt
  | readState => exact hs.respond .ok _ fun h => absurd rfl h

/-- What a command asks the walker for is a function of the Permutation and the cursors. -/
theorem State.walkRequest_congr {s t : State} (hp : t.perm = s.perm) (hc : t.cursors = s.cursors) (i : Instr) :
    t.walkRequest i = s.walkRequest i := by
  cases i <;> simp only [State.walkRequest, State.cursor?, hp, hc]

/-- During a walk the hash transaction may be in any phase, the round counter anywhere below ROUNDS, and the lanes may hold any
halves that fit the mask. -/
theorem State.Legal.withinPass {s : State} (hs : s.Legal) (hk : s.walking = true) (hp : HashPhase) (msg : Message)
    (sent : List Message) {r : Byte} {l : Lanes} (hr : r < s.perm.rounds) (hl : LanesFit s.perm l) :
    ({ s with hashPhase := hp, hashMsg := msg, hashSent := sent, dp := { s.dp with r := r, lanes := l } } : State).Legal := by
  obtain ⟨hphase, ⟨i, d, x0, hd, hw⟩, hlt, -, -, -⟩ := hs.walk hk
  refine { hs with hash := fun _ => hk, walk := fun _ => ⟨hphase, ⟨i, d, x0, hd, ?_⟩, hlt, hr, hl.1, hl.2⟩ }
  exact (State.walkRequest_congr rfl rfl i).trans hw

/-- A digest of a walk under way, whatever its value: the round's halves fit the mask, and a completed pass counts one step more,
which WALK_CAP still allows. -/
theorem State.Legal.takeDigest {s : State} (hs : s.Legal) (hk : s.walking = true) {i : Instr} {d : Direction} {x0 : Word}
    (hd : decode s.ncur s.cmdData = .command i) (hw : s.walkRequest i = some (d, x0)) (g : Word) :
    (s.takeDigest i d g).Legal := by
  obtain ⟨hphase, -, hlt, hr, hlh, hrh⟩ := hs.walk hk
  have hfit := mixRound_fit hs.perm d g ⟨hlh, hrh⟩
  have hcount : s.dp.k + 1 ≤ s.walkCap := (succ_of_lt hlt).2
  rcases State.takeDigest_cases i d g s with ⟨hne, e⟩ | ⟨-, -, e⟩ | ⟨-, -, e⟩ <;> rw [e]
  · exact hs.withinPass hk .hidle s.hashMsg s.hashSent (nextRound_lt hs.perm hr hne) hfit
  · refine hs.closeWalk i _ (fun h => absurd rfl h) ?_ (State.pos_lt_of_walkRequest hw)
    rwa [BitVec.ofNat_toNat, BitVec.setWidth_eq]
  · exact hs.walkTurn hphase hd hw _ _ hcount (packBlock_lt hs.perm hfit)

/-- An edge of a walk under way. -/
theorem State.Legal.walkEdge {s : State} (hs : s.Legal) (hk : s.walking = true) (en : Enc) {i : Instr} {d : Direction}
    {x0 : Word} (hd : decode s.ncur s.cmdData = .command i) (hw : s.walkRequest i = some (d, x0)) (e : PortIn) :
    (s.walkEdge en i d e).Legal := by
  obtain ⟨-, -, -, hr, hlh, hrh⟩ := hs.walk hk
  rcases State.walkEdge_cases en i d e s with ⟨hp, msg, sent, h⟩ | ⟨-, -, h⟩ <;> rw [h]
  · exact hs.withinPass hk hp msg sent hr ⟨hlh, hrh⟩
  · exact hs.takeDigest hk hd hw _

/-- The edge that starts a walk: its block value is below N, so it fits the block width. -/
theorem State.Legal.startWalk {s : State} (hs : s.Legal) (hp : s.cmdPhase = .exec) {i : Instr} {d : Direction} {x0 : Word}
    (hd : decode s.ncur s.cmdData = .command i) (hw : s.walkRequest i = some (d, x0)) : (s.walkTurn i d 0 x0).Legal := by
  have hx : x0.toNat < s.perm.n.toNat := BitVec.lt_def.1 (hs.walkRequest_lt hw)
  obtain ⟨-, -, -, hn⟩ := hs.perm.bounds
  exact hs.walkTurn hp hd hw 0 x0 (word_zero_le _) (hx.trans_le hn)

/-- Settles O13: each thing a step can do keeps the legal states. -/
theorem stepKeepsLegal : Obligations.StepKeepsLegal := by
  intro s t hs hstep
  have ht : s.tick.Legal := hs.tick
  cases step_effect hstep with
  | reset => exact ht.resetEdge
  | accept _ hp _ => exact ht.accept (by rw [State.tick_cmdPhase, hp]; decide) _
  | release _ hp _ => exact ht.release (by rw [State.tick_cmdPhase, hp]; decide)
  | wait => exact ht
  | illegal => exact ht.respond _ 0 fun _ => rfl
  | command _ _ _ _ _ he => exact he.legal ht
  | start _ hp _ hd hw _ => exact ht.startWalk hp hd hw
  | walk _ _ _ hd hw hk => exact ht.walkEdge hk _ hd hw _

end Sys2Proof.Machine

/-! SUPPORT. What a step can write (10_state.md R17, R29, R32; 70_reset_and_hazards.md R132): the parameters never, the Permutation by
CONSTRUCT and reset alone, IIV by reset and a capped walk alone; then the obligations O16, O14 and O15. -/

namespace Sys2Proof.Machine

section Constants

/-- No command writes WALK_CAP, the number of cursors or ENC. -/
theorem Effect.keeps_constants {s t : State} {i : Instr} (h : Effect s i t) :
    t.walkCap = s.walkCap ∧ t.ncur = s.ncur ∧ t.encoding = s.encoding := by
  cases h with
  | raise | get | invert | readState => exact ⟨rfl, rfl, rfl⟩
  | construct => exact ⟨rfl, State.ncur_clearCursors _, rfl⟩
  | iter | range | next => exact ⟨rfl, State.ncur_setCursor _ _ _, rfl⟩

/-- Settles O16: a reset edge keeps the parameters too, and no edge of a walk writes them. -/
theorem constantsHaveNoWriter : Obligations.ConstantsHaveNoWriter := by
  intro s t hstep
  cases step_effect hstep with
  | reset => exact ⟨rfl, State.ncur_resetEdge _, rfl⟩
  | accept | release | wait | illegal => exact ⟨rfl, rfl, rfl⟩
  | command _ _ _ _ _ he => exact he.keeps_constants
  | start => exact (State.walkTurn_keeps _ _ _ _ _).2
  | walk => exact (State.walkEdge_keeps _ _ _ _ _).2

end Constants

section Permutation

/-- A command that writes the Permutation is an accepted CONSTRUCT. -/
theorem Effect.perm_cases {s t : State} {i : Instr} (h : Effect s i t) :
    t.perm = s.perm ∨ ∃ n seed rounds, i = .construct n seed rounds ∧ n ≤ Config.nMax ∧ rounds ≠ 0 := by
  cases h with
  | construct hn hr => exact .inr ⟨_, _, _, rfl, hn, hr⟩
  | raise | get | invert | iter | range | next | readState => exact .inl rfl

/-- Settles O14: among the things a step can do, only a reset edge and an accepted CONSTRUCT write the Permutation. -/
theorem permutationChangesOnlyByConstructOrReset : Obligations.PermutationChangesOnlyByConstructOrReset := by
  intro s t hstep hne
  cases step_effect hstep with
  | reset hr => exact .inl hr
  | accept | release | wait | illegal => exact absurd rfl hne
  | command _ hp hd _ _ he =>
    obtain h | ⟨n, seed, rounds, rfl, hn, hr⟩ := he.perm_cases
    · exact absurd h hne
    · exact .inr ⟨hp, n, seed, rounds, hd, hn, hr⟩
  | start => exact absurd (State.walkTurn_keeps _ _ _ _ _).1 hne
  | walk => exact absurd (State.walkEdge_keeps _ _ _ _ _).1 hne

end Permutation

section Iiv

/-- The commands that walk (43_cycle_walker.md R94). -/
def IsWalkCommand (i : Instr) : Prop := (∃ x, i = .get x) ∨ (∃ x, i = .invert x) ∨ ∃ c, i = .next c

theorem isWalkCommand_of_walkRequest {s : State} {i : Instr} {d : Direction} {x : Word} (h : s.walkRequest i = some (d, x)) :
    IsWalkCommand i := by
  obtain ⟨-, ⟨hi, -⟩ | ⟨hi, -⟩ | ⟨c, -, hi, -⟩⟩ := State.walkRequest_cases h
  · exact .inl ⟨x, hi⟩
  · exact .inr (.inl ⟨x, hi⟩)
  · exact .inr (.inr ⟨c, hi⟩)

/-- `t` completes the walk of command `i` at the cap `cap` (60_exceptions.md R118). -/
structure CappedEnd (i : Instr) (cap : Word) (t : State) : Prop where
  phase : t.cmdPhase = .resp
  response : t.response = { code := .internalInvariantViolation, value := 0 }
  walkCount : t.walkCount = cap
  isWalk : IsWalkCommand i

/-- What executing `i` from `s` may do to STATUS: nothing, or set IIV at the end of a capped walk. -/
def StatusStep (s : State) (i : Instr) (t : State) : Prop :=
  t.status = s.status ∨ (t.status = s.status ||| 1 ∧ CappedEnd i s.walkCap t)

/-- A walk's end sets IIV if the walk was capped, and leaves STATUS if its code is OK. -/
theorem statusStep_closeWalk {s : State} {i : Instr} {w : WalkResult} (hi : IsWalkCommand i)
    (hw : w.code = .ok ∨
      (w.code = .internalInvariantViolation ∧ w.value = 0 ∧ BitVec.ofNat 64 w.steps = s.walkCap)) :
    StatusStep s i (s.closeWalk i w) := by
  obtain ⟨-, -, -, hphase, hresp, hcount, hstatus, -⟩ := State.closeWalk_keeps i w s
  obtain hok | ⟨hcode, hvalue, hsteps⟩ := hw
  · rw [if_neg (by rw [hok]; decide)] at hstatus
    exact .inl hstatus
  · rw [if_pos hcode] at hstatus
    rw [hcode, hvalue] at hresp
    exact .inr ⟨hstatus, hphase, hresp, hcount.trans hsteps, hi⟩

/-- A whole walk under WALK_CAP answers OK, or the violation after WALK_CAP steps. -/
theorem walk_ok_or_capped (u : HashPort) (p : Perm) (cap : Word) (d : Direction) (x : Word) :
    (walk u p cap d x).code = .ok ∨
      ((walk u p cap d x).code = .internalInvariantViolation ∧ (walk u p cap d x).value = 0 ∧
        BitVec.ofNat 64 (walk u p cap d x).steps = cap) := by
  rcases walk_cases u p cap d x with ⟨-, h⟩ | ⟨-, _, -, -, h, -, -⟩ | ⟨-, -, hcode, hvalue, hsteps⟩
  · exact .inl (by rw [h])
  · exact .inl h
  · exact .inr ⟨hcode, hvalue, by rw [hsteps, BitVec.ofNat_toNat, BitVec.setWidth_eq]⟩

theorem Effect.statusStep {s t : State} {i : Instr} (h : Effect s i t) : StatusStep s i t := by
  cases h with
  | raise | construct | iter | range | readState => exact .inl rfl
  | @get x => exact statusStep_closeWalk (i := .get x) (.inl ⟨x, rfl⟩) (walk_ok_or_capped _ _ _ _ _)
  | @invert x => exact statusStep_closeWalk (i := .invert x) (.inr (.inl ⟨x, rfl⟩)) (walk_ok_or_capped _ _ _ _ _)
  | @next c cur hc =>
    rw [← State.closeWalk_next hc]
    exact statusStep_closeWalk (.inr (.inr ⟨c, rfl⟩)) (walk_ok_or_capped _ _ _ _ _)

/-- The top of the walk's loop reports the violation exactly when its step count is WALK_CAP. -/
theorem statusStep_walkTurn {s : State} {i : Instr} (hi : IsWalkCommand i) (d : Direction) (k x : Word) :
    StatusStep s i (s.walkTurn i d k x) := by
  rcases State.walkTurn_cases i d k x s with ⟨hk, e⟩ | ⟨-, e⟩ <;> rw [e]
  · exact statusStep_closeWalk hi (.inr ⟨rfl, rfl, by rw [BitVec.ofNat_toNat, BitVec.setWidth_eq, hk]⟩)
  · exact .inl rfl

theorem statusStep_walkEdge {s : State} {i : Instr} (hi : IsWalkCommand i) (en : Enc) (d : Direction) (e : PortIn) :
    StatusStep s i (s.walkEdge en i d e) := by
  rcases State.walkEdge_cases en i d e s with ⟨_, _, _, h⟩ | ⟨-, -, h⟩ <;> rw [h]
  · exact .inl rfl
  · rcases State.takeDigest_cases i d e.hashRspData s with ⟨-, h⟩ | ⟨-, -, h⟩ | ⟨-, -, h⟩ <;> rw [h]
    · exact .inl rfl
    · exact statusStep_closeWalk hi (.inl rfl)
    · exact statusStep_walkTurn hi _ _ _

/-- What a step from `s` without a reset may do to STATUS: nothing, or set IIV at the end of the latched command's capped walk. -/
def StatusKeptOrSet (s t : State) : Prop :=
  t.status = s.status ∨
    (t.status = s.status ||| 1 ∧ ∃ i, decode s.ncur s.cmdData = .command i ∧ CappedEnd i s.walkCap t)

theorem StatusStep.keptOrSet {s t : State} {i : Instr} (h : StatusStep s i t)
    (hd : decode s.ncur s.cmdData = .command i) : StatusKeptOrSet s t :=
  h.imp_right fun ⟨hset, hend⟩ => ⟨hset, i, hd, hend⟩

theorem StepEffect.statusKeptOrSet {s t : State} (h : StepEffect s t) (hr : s.pinsNow.rst = false) :
    StatusKeptOrSet s t := by
  cases h with
  | reset hr' => exact absurd (hr'.symm.trans hr) (by decide)
  | accept | release | wait | illegal => exact .inl rfl
  | command _ _ hd _ _ he => exact he.statusStep.keptOrSet (s := s.tick) hd
  | start _ _ _ hd hw => exact (statusStep_walkTurn (isWalkCommand_of_walkRequest hw) _ _ _).keptOrSet (s := s.tick) hd
  | walk _ _ _ hd hw => exact (statusStep_walkEdge (isWalkCommand_of_walkRequest hw) _ _ _).keptOrSet (s := s.tick) hd

/-- Settles O15: STATUS stays, or gains bit 0 at the end of a capped walk. -/
theorem iivIsStickyAndSetByWalksOnly : Obligations.IivIsStickyAndSetByWalksOnly := by
  intro s t hstep hr
  obtain hkept | ⟨hset, i, hd, hend⟩ := (step_effect hstep).statusKeptOrSet hr
  · have hiiv : t.iiv = s.iiv := congrArg (·.getLsbD 0) hkept
    exact ⟨fun h => hiiv.trans h, fun h h' => absurd (h'.symm.trans (hiiv.trans h)) (by decide)⟩
  · have hiiv : t.iiv = true := by rw [State.iiv, hset]; simp
    exact ⟨fun _ => hiiv, fun _ _ => ⟨hend.phase, hend.response, hend.walkCount, i, hd, hend.isWalk⟩⟩

end Iiv

end Sys2Proof.Machine

/-! SUPPORT. Two states with the same inputs to the commands (10_state.md R33, R37; 60_exceptions.md R122): each meaning takes the same
branch in both and leaves the same result; then the obligation O52. -/

namespace Sys2Proof.Machine

/-- The states agree on what the commands but READ_STATE take: the Permutation, the cursors, WALK_CAP, ENC. -/
structure SameInputs (s s' : State) : Prop where
  perm : s.perm = s'.perm
  cursors : s.cursors = s'.cursors
  walkCap : s.walkCap = s'.walkCap
  encoding : s.encoding = s'.encoding

/-- Two commands both complete, with the same response, Permutation and cursors. -/
inductive SameResult : Result → Result → Prop where
  | next {t t' : State} : t.response = t'.response → t.perm = t'.perm → t.cursors = t'.cursors →
      SameResult (.next t) (.next t')

section Meanings

variable {s s' : State} (h : SameInputs s s')
include h

theorem SameInputs.ncur : s.ncur = s'.ncur := congrArg List.length h.cursors

theorem SameInputs.cursor? (c : Byte) : s.cursor? c = s'.cursor? c := congrArg (·[c.toNat]?) h.cursors

theorem SameInputs.hashPort : s.hashPort = s'.hashPort := State.hashPort_congr h.encoding

theorem SameInputs.raise (code : Code) : SameResult (.next (s.raise code)) (.next (s'.raise code)) :=
  .next rfl h.perm h.cursors

theorem SameInputs.setCursor (c : Byte) (cur : Cursor) : (s.setCursor c cur).cursors = (s'.setCursor c cur).cursors :=
  congrArg (·.set c.toNat cur) h.cursors

theorem SameInputs.openCursor (c : Byte) (lo hi : Word) :
    SameResult (.next (s.openCursor c lo hi)) (.next (s'.openCursor c lo hi)) :=
  .next rfl h.perm (h.setCursor c _)

theorem SameInputs.construct (n seed : Word) (rounds : Byte) :
    SameResult (execConstruct n seed rounds s) (execConstruct n seed rounds s') := by
  unfold execConstruct
  split
  · exact h.raise _
  · split
    · exact h.raise _
    · exact .next rfl rfl (congrArg (List.map _) h.cursors)

theorem SameInputs.query (u : HashPort) (d : Direction) (x : Word) : SameResult (queryWith u d x s) (queryWith u d x s') := by
  unfold queryWith
  rw [h.perm, h.walkCap]
  split
  · exact h.raise _
  · exact .next rfl h.perm h.cursors

theorem SameInputs.iter (c : Byte) : SameResult (execIter c s) (execIter c s') := by
  unfold execIter
  rw [h.ncur, h.perm]
  split
  · exact h.openCursor c _ _
  · exact h.raise _

theorem SameInputs.range (c : Byte) (lo hi : Word) : SameResult (execRange c lo hi s) (execRange c lo hi s') := by
  unfold execRange
  rw [h.ncur, h.perm]
  split
  · split
    · exact h.raise _
    · exact h.openCursor c lo hi
  · exact h.raise _

theorem SameInputs.next (u : HashPort) (c : Byte) : SameResult (nextWith u c s) (nextWith u c s') := by
  unfold nextWith
  rw [h.cursor? c, h.perm, h.walkCap]
  split
  · exact h.raise _
  · split
    · exact h.raise _
    · exact .next rfl h.perm (h.setCursor c _)

/-- Every command but READ_STATE. -/
theorem SameInputs.exec {i : Instr} (hr : ∀ reg, i ≠ .readState reg) : SameResult (exec i s) (exec i s') := by
  cases i with
  | construct n seed rounds => exact h.construct n seed rounds
  | get x =>
    change SameResult (queryWith s.hashPort .forward x s) (queryWith s'.hashPort .forward x s')
    rw [h.hashPort]
    exact h.query _ .forward x
  | invert x =>
    change SameResult (queryWith s.hashPort .inverse x s) (queryWith s'.hashPort .inverse x s')
    rw [h.hashPort]
    exact h.query _ .inverse x
  | iter c => exact h.iter c
  | range c lo hi => exact h.range c lo hi
  | next c =>
    change SameResult (nextWith s.hashPort c s) (nextWith s'.hashPort c s')
    rw [h.hashPort]
    exact h.next _ c
  | readState reg => exact absurd rfl (hr reg)

end Meanings

/-- Settles O52: states with the same inputs give the same result, whatever else they hold. -/
theorem resultsIgnoreObservationAndHiddenState : Obligations.ResultsIgnoreObservationAndHiddenState := by
  intro i s s' t t' hi hp hc hcap hen ht ht'
  have hsame := SameInputs.exec ⟨hp, hc, hcap, hen⟩ hi
  rw [ht, ht'] at hsame
  obtain ⟨hresp, hperm, hcur⟩ := hsame
  exact ⟨hresp, hperm, hcur⟩

end Sys2Proof.Machine

/-! SUPPORT. The output pins (10_state.md R30; 70_reset_and_hazards.md R131, R136; 41_round_function.md R82): the obligation O9. -/

namespace Sys2Proof.Machine

/-- Settles O9: each output is its phase's record while rst is 0; iiv_fault does not look at rst. -/
theorem outputPinsShowThePhase : Obligations.OutputPinsShowThePhase := by
  intro s rst
  cases rst with
  | false => exact ⟨by simp [State.outputs], by simp [State.outputs], by simp [State.outputs], rfl⟩
  | true => exact ⟨by simp [State.outputs], rfl, rfl, rfl⟩

end Sys2Proof.Machine

/-! SUPPORT. What a command leaves unchanged (20_memory.md R42; 10_state.md R17, R31; 45_iteration_commands.md R106), read off the effects of
exec: the obligations O49 and O50; and the step that executes a latched command under contract (20_memory.md R45): the obligation O5. -/

namespace Sys2Proof.Machine

section Frames

/-- Every command but CONSTRUCT leaves these fields unchanged; of STATUS it may write bit 0, IIV. -/
structure CommandFrame (s t : State) : Prop where
  perm : t.perm = s.perm
  walkCap : t.walkCap = s.walkCap
  ncur : t.ncur = s.ncur
  status : ∀ k, 1 ≤ k → t.status.getLsbD k = s.status.getLsbD k
  cmdData : t.cmdData = s.cmdData
  dp : t.dp = s.dp
  hashMsg : t.hashMsg = s.hashMsg
  hashUnit : t.hashUnit = s.hashUnit
  io : t.io = s.io
  encoding : t.encoding = s.encoding

/-- No command writes the latched record, the walk datapath, the request message or the surroundings: no effect names one of them. -/
theorem Effect.keeps_hidden {s t : State} {i : Instr} (h : Effect s i t) :
    t.cmdData = s.cmdData ∧ t.dp = s.dp ∧ t.hashMsg = s.hashMsg ∧ t.hashUnit = s.hashUnit ∧ t.io = s.io := by
  cases h <;> exact ⟨rfl, rfl, rfl, rfl, rfl⟩

/-- What a command may do to STATUS touches bit 0 alone. -/
theorem StatusStep.getLsbD {s t : State} {i : Instr} (h : StatusStep s i t) {k : Nat} (hk : 1 ≤ k) :
    t.status.getLsbD k = s.status.getLsbD k := by
  obtain hkept | ⟨hset, -⟩ := h
  · rw [hkept]
  · have hbit : (1 : BitVec 64).getLsbD k = false := by simp [BitVec.getLsbD_one, Nat.ne_of_gt hk]
    rw [hset, BitVec.getLsbD_or, hbit, Bool.or_false]

theorem Effect.commandFrame {s t : State} {i : Instr} (h : Effect s i t)
    (hi : ∀ n seed rounds, i ≠ .construct n seed rounds) : CommandFrame s t := by
  obtain ⟨hcap, hncur, hen⟩ := h.keeps_constants
  obtain ⟨hdata, hdp, hmsg, hunit, hio⟩ := h.keeps_hidden
  have hperm : t.perm = s.perm :=
    h.perm_cases.resolve_right fun ⟨n, seed, rounds, hc, _⟩ => hi n seed rounds hc
  exact ⟨hperm, hcap, hncur, fun _ => h.statusStep.getLsbD, hdata, hdp, hmsg, hunit, hio, hen⟩

/-- A command that does not walk writes no observation register and sends no message (10_state.md R29, R31). -/
theorem Effect.keeps_observation {s t : State} {i : Instr} (h : Effect s i t) (hi : ¬ IsWalkCommand i) :
    t.status = s.status ∧ t.walkCount = s.walkCount ∧ t.hashSent = s.hashSent := by
  cases h with
  | raise | construct | iter | range | readState => exact ⟨rfl, rfl, rfl⟩
  | @get x => exact absurd (.inl ⟨x, rfl⟩) hi
  | @invert x => exact absurd (.inr (.inl ⟨x, rfl⟩)) hi
  | @next c => exact absurd (.inr (.inr ⟨c, rfl⟩)) hi

/-- The cursor slot a command names (45_iteration_commands.md R106-R108). -/
def namedSlot : Instr → Option Byte
  | .iter c => some c
  | .range c _ _ => some c
  | .next c => some c
  | .construct _ _ _ => none
  | .get _ => none
  | .invert _ => none
  | .readState _ => none

/-- Every command but CONSTRUCT leaves the cursors it does not name unchanged. -/
theorem Effect.getElem?_cursors {s t : State} {i : Instr} (h : Effect s i t)
    (hi : ∀ n seed rounds, i ≠ .construct n seed rounds) {k : Nat} (hk : ∀ c, namedSlot i = some c → c.toNat ≠ k) :
    t.cursors[k]? = s.cursors[k]? := by
  cases h with
  | raise | get | invert | readState => rfl
  | construct => exact absurd rfl (hi _ _ _)
  | iter | range | next => exact List.getElem?_set_ne (hk _ rfl)

theorem Effect.cursors_of_namedSlot_none {s t : State} {i : Instr} (h : Effect s i t)
    (hi : ∀ n seed rounds, i ≠ .construct n seed rounds) (hslot : namedSlot i = none) : t.cursors = s.cursors :=
  List.ext_getElem? fun _ => h.getElem?_cursors hi fun c hc => by rw [hslot] at hc; cases hc

@[simp] theorem advanceCursor_stop (w : WalkResult) (cur : Cursor) : (advanceCursor w cur).stop = cur.stop := by
  unfold advanceCursor
  split <;> rfl

/-- NEXT moves CUR_POS of its slot alone (45_iteration_commands.md R108). -/
theorem Effect.next_stop {s t : State} {c : Byte} {cur cur' : Cursor} (h : Effect s (.next c) t)
    (hs : s.cursor? c = some cur) (ht : t.cursor? c = some cur') : cur'.stop = cur.stop := by
  cases h with
  | raise =>
    cases hs.symm.trans ht
    rfl
  | @next _ old hold =>
    cases hold.symm.trans hs
    cases (State.cursor?_setCursor_self (State.lt_of_cursor? hs)).symm.trans ht
    exact advanceCursor_stop _ cur

end Frames

/-- Settles O49: the frame of every command but CONSTRUCT, and no query names a slot; READ_STATE does not walk. -/
theorem queryFrame : Obligations.QueryFrame := by
  intro i s t hi hexec
  have he := exec_effect hexec
  have hcon : ∀ n seed rounds, i ≠ .construct n seed rounds := by
    obtain ⟨_, rfl⟩ | ⟨_, rfl⟩ | ⟨_, rfl⟩ := hi <;> exact nofun
  have hslot : namedSlot i = none := by
    obtain ⟨_, rfl⟩ | ⟨_, rfl⟩ | ⟨_, rfl⟩ := hi <;> rfl
  have hf := he.commandFrame hcon
  refine ⟨hf.perm, he.cursors_of_namedSlot_none hcon hslot, hf.walkCap, hf.status, hf.cmdData, hf.dp, hf.hashMsg,
    hf.hashUnit, hf.io, hf.encoding, ?_⟩
  rintro ⟨reg, rfl⟩
  exact he.keeps_observation (by simp [IsWalkCommand])

/-- Settles O50: the frame of every command but CONSTRUCT, and slot `c` is the only one named; ITER and RANGE do not walk, and NEXT keeps
CUR_END. -/
theorem cursorFrame : Obligations.CursorFrame := by
  intro i c s t hi hexec
  have he := exec_effect hexec
  have hcon : ∀ n seed rounds, i ≠ .construct n seed rounds := by
    obtain rfl | ⟨_, _, rfl⟩ | rfl := hi <;> exact nofun
  have hslot : namedSlot i = some c := by
    obtain rfl | ⟨_, _, rfl⟩ | rfl := hi <;> rfl
  have hother : ∀ k : Nat, k ≠ c.toNat → t.cursors[k]? = s.cursors[k]? := fun k hk =>
    he.getElem?_cursors hcon fun c' hc' => by
      cases hslot.symm.trans hc'
      exact hk.symm
  have hwalk : i ≠ .next c → ¬ IsWalkCommand i := by
    intro hne
    obtain rfl | ⟨_, _, rfl⟩ | rfl := hi
    · simp [IsWalkCommand]
    · simp [IsWalkCommand]
    · exact absurd rfl hne
  have hf := he.commandFrame hcon
  refine ⟨hf.perm, hf.walkCap, hf.ncur, hother, hf.status, hf.cmdData, hf.dp, hf.hashMsg, hf.hashUnit, hf.io,
    hf.encoding, fun hne => he.keeps_observation (hwalk hne), ?_⟩
  rintro rfl cur cur' hs ht
  exact he.next_stop hs ht

section Execution

/-- A step in EXEC without reset is one edge of the execution. -/
theorem step_of_exec {s : State} (hp : s.cmdPhase = .exec) (hr : s.pinsNow.rst = false) :
    step s = s.tick.executeEdge s.pinsNow := by
  simp only [step, State.edge, hr, State.tick_cmdPhase, hp, Bool.false_eq_true, if_false]

theorem State.executeLatched_of_command {s : State} {i : Instr} (hd : decode s.ncur s.cmdData = .command i) :
    s.executeLatched = exec i s := by
  rw [State.executeLatched, hd]

theorem State.executeEdge_of_contract {s : State} (hu : s.hashUnit = .contract) (e : PortIn) :
    s.executeEdge e = s.executeLatched := by
  rw [State.executeEdge, hu]

end Execution

/-- Settles O5: the edge executes the latched record, and using up the input sample does not change what it decodes to. -/
theorem stepRunsLatchedCommand : Obligations.StepRunsLatchedCommand := by
  intro s i hp hu hr hd
  calc step s = s.tick.executeEdge s.pinsNow := step_of_exec hp hr
    _ = s.tick.executeLatched := State.executeEdge_of_contract (s := s.tick) hu _
    _ = exec i s.tick := State.executeLatched_of_command (s := s.tick) hd

end Sys2Proof.Machine

/-! SUPPORT. What a record decodes to, opcode by opcode (30_encoding.md R55-R59): the obligations O1, O2, O3 and O4. -/

namespace Sys2Proof

section Decoder

variable {ncur : Nat} {w : Record} {i : Instr}

/-- The seven opcodes, and the reserved ones (30_encoding.md R55). -/
theorem fieldOp_cases (w : Record) :
    fieldOp w = 1 ∨ fieldOp w = 2 ∨ fieldOp w = 3 ∨ fieldOp w = 4 ∨ fieldOp w = 5 ∨ fieldOp w = 6 ∨ fieldOp w = 7 ∨
      (fieldOp w = 0 ∨ 8 ≤ (fieldOp w).toNat) := by
  simp only [← BitVec.toNat_inj, BitVec.reduceToNat]
  omega

theorem illegal_iff_not_command {d : Decoded} : (∃ why, d = .illegal why) ↔ ¬ ∃ i, d = .command i := by
  cases d <;> simp

theorem decodeQuery_eq_command {j : Instr} :
    decodeQuery w i = .command j ↔ fieldRnd w = 0 ∧ fieldIdx w = 0 ∧ j = i := by
  unfold decodeQuery
  split_ifs <;> simp_all [eq_comm]

theorem decodeSlot_eq_command {j : Instr} :
    decodeSlot ncur w i = .command j ↔ fieldRnd w = 0 ∧ (fieldIdx w).toNat < ncur ∧ j = i := by
  unfold decodeSlot
  split_ifs <;> simp_all [eq_comm]

theorem decode_of_rsvd_ne (hs : fieldRsvd w ≠ 0) : decode ncur w = .illegal .reservedField := if_pos hs

theorem decode_of_reserved (hs : fieldRsvd w = 0) (ho : fieldOp w = 0 ∨ 8 ≤ (fieldOp w).toNat) :
    decode ncur w = .illegal .reservedOpcode := by
  have hn : (fieldOp w).toNat = 0 ∨ 8 ≤ (fieldOp w).toNat := ho.imp_left (congrArg BitVec.toNat)
  rw [decode, if_neg (not_not.mpr hs)]
  split
  case h_8 => rfl
  all_goals omega

theorem decode_construct_iff (hs : fieldRsvd w = 0) (ho : fieldOp w = 1) :
    decode ncur w = .command i ↔ fieldIdx w = 0 ∧ i = .construct (fieldA w) (fieldBop w) (fieldRnd w) := by
  rw [decode, if_neg (not_not.mpr hs), ho]
  change (if fieldIdx w ≠ 0 then _ else _) = _ ↔ _
  split_ifs <;> simp_all [eq_comm]

theorem decode_get_iff (hs : fieldRsvd w = 0) (ho : fieldOp w = 2) :
    decode ncur w = .command i ↔ fieldRnd w = 0 ∧ fieldIdx w = 0 ∧ i = .get (fieldA w) := by
  rw [decode, if_neg (not_not.mpr hs), ho]
  exact decodeQuery_eq_command

theorem decode_invert_iff (hs : fieldRsvd w = 0) (ho : fieldOp w = 3) :
    decode ncur w = .command i ↔ fieldRnd w = 0 ∧ fieldIdx w = 0 ∧ i = .invert (fieldA w) := by
  rw [decode, if_neg (not_not.mpr hs), ho]
  exact decodeQuery_eq_command

theorem decode_iter_iff (hs : fieldRsvd w = 0) (ho : fieldOp w = 4) :
    decode ncur w = .command i ↔ fieldRnd w = 0 ∧ (fieldIdx w).toNat < ncur ∧ i = .iter (fieldIdx w) := by
  rw [decode, if_neg (not_not.mpr hs), ho]
  exact decodeSlot_eq_command

theorem decode_range_iff (hs : fieldRsvd w = 0) (ho : fieldOp w = 5) :
    decode ncur w = .command i ↔
      fieldRnd w = 0 ∧ (fieldIdx w).toNat < ncur ∧ i = .range (fieldIdx w) (fieldA w) (fieldBop w) := by
  rw [decode, if_neg (not_not.mpr hs), ho]
  exact decodeSlot_eq_command

theorem decode_next_iff (hs : fieldRsvd w = 0) (ho : fieldOp w = 6) :
    decode ncur w = .command i ↔ fieldRnd w = 0 ∧ (fieldIdx w).toNat < ncur ∧ i = .next (fieldIdx w) := by
  rw [decode, if_neg (not_not.mpr hs), ho]
  exact decodeSlot_eq_command

theorem decode_readState_iff (hs : fieldRsvd w = 0) (ho : fieldOp w = 7) :
    decode ncur w = .command i ↔
      fieldRnd w = 0 ∧ ∃ reg, stateRegAt ncur (fieldIdx w) = some reg ∧ i = .readState reg := by
  rw [decode, if_neg (not_not.mpr hs), ho]
  change (if fieldRnd w ≠ 0 then _ else _) = _ ↔ _
  by_cases hr : fieldRnd w = 0
  · rw [if_neg (not_not.mpr hr)]
    cases stateRegAt ncur (fieldIdx w) <;> simp [hr, eq_comm]
  · rw [if_pos hr]
    exact iff_of_false nofun fun h => hr h.1

/-- A record's header is that of any record with the same four fields (30_encoding.md R53). -/
theorem header_eq_of_fields {op idx rnd : Byte} {a bop : Word} (ho : fieldOp w = op) (hi : fieldIdx w = idx)
    (hr : fieldRnd w = rnd) (hs : fieldRsvd w = 0) :
    w.extractLsb' 0 32 = (assemble op idx rnd a bop).extractLsb' 0 32 := by
  rw [header_eq, header_assemble, ho, hi, hr, hs]

end Decoder

/-- Settles O1: each command's record has the fields its opcode's row asks for, and the operands are read back from them. -/
theorem decodeOfEncodeIsIdentity : Obligations.DecodeOfEncodeIsIdentity := by
  intro ncur i hw
  cases i with
  | construct n seed rounds =>
    rw [encode, decode_construct_iff (fieldRsvd_assemble ..) (fieldOp_assemble ..)]
    simp only [fieldIdx_assemble, fieldRnd_assemble, fieldA_assemble, fieldBop_assemble, and_self]
  | get x =>
    rw [encode, decode_get_iff (fieldRsvd_assemble ..) (fieldOp_assemble ..)]
    simp only [fieldIdx_assemble, fieldRnd_assemble, fieldA_assemble, and_self]
  | invert x =>
    rw [encode, decode_invert_iff (fieldRsvd_assemble ..) (fieldOp_assemble ..)]
    simp only [fieldIdx_assemble, fieldRnd_assemble, fieldA_assemble, and_self]
  | iter c =>
    rw [encode, decode_iter_iff (fieldRsvd_assemble ..) (fieldOp_assemble ..)]
    simp only [fieldIdx_assemble, fieldRnd_assemble, of_decide_eq_true hw, and_self]
  | range c lo hi =>
    rw [encode, decode_range_iff (fieldRsvd_assemble ..) (fieldOp_assemble ..)]
    simp only [fieldIdx_assemble, fieldRnd_assemble, fieldA_assemble, fieldBop_assemble, of_decide_eq_true hw, and_self]
  | next c =>
    rw [encode, decode_next_iff (fieldRsvd_assemble ..) (fieldOp_assemble ..)]
    simp only [fieldIdx_assemble, fieldRnd_assemble, of_decide_eq_true hw, and_self]
  | readState reg =>
    rw [encode, decode_readState_iff (fieldRsvd_assemble ..) (fieldOp_assemble ..), fieldIdx_assemble]
    exact ⟨fieldRnd_assemble .., reg, stateRegAt_stateIndexOf ncur reg hw, rfl⟩

/-- Settles O2: in each opcode the checks that were passed are the side condition and fix the header's fields. -/
theorem decodedCommandsAreExact : Obligations.DecodedCommandsAreExact := by
  intro ncur w i h
  have hs : fieldRsvd w = 0 := by
    by_contra hs
    cases (decode_of_rsvd_ne hs).symm.trans h
  rcases fieldOp_cases w with ho | ho | ho | ho | ho | ho | ho | ho
  · obtain ⟨hi, rfl⟩ := (decode_construct_iff hs ho).mp h
    exact ⟨rfl, header_eq_of_fields ho hi rfl hs, rfl, rfl⟩
  · obtain ⟨hr, hi, rfl⟩ := (decode_get_iff hs ho).mp h
    exact ⟨rfl, header_eq_of_fields ho hi hr hs, rfl⟩
  · obtain ⟨hr, hi, rfl⟩ := (decode_invert_iff hs ho).mp h
    exact ⟨rfl, header_eq_of_fields ho hi hr hs, rfl⟩
  · obtain ⟨hr, hlt, rfl⟩ := (decode_iter_iff hs ho).mp h
    exact ⟨decide_eq_true hlt, header_eq_of_fields ho rfl hr hs, trivial⟩
  · obtain ⟨hr, hlt, rfl⟩ := (decode_range_iff hs ho).mp h
    exact ⟨decide_eq_true hlt, header_eq_of_fields ho rfl hr hs, rfl, rfl⟩
  · obtain ⟨hr, hlt, rfl⟩ := (decode_next_iff hs ho).mp h
    exact ⟨decide_eq_true hlt, header_eq_of_fields ho rfl hr hs, trivial⟩
  · obtain ⟨hr, reg, hreg, rfl⟩ := (decode_readState_iff hs ho).mp h
    obtain ⟨hidx, hwf⟩ := stateRegAt_eq_some hreg
    exact ⟨hwf, header_eq_of_fields ho hidx.symm hr hs, trivial⟩
  · cases (decode_of_reserved hs ho).symm.trans h

/-- Settles O3: in each opcode one of its checks fails; the other disjuncts ask for another opcode. -/
theorem illegalRecordsAreExactlyTheListed : Obligations.IllegalRecordsAreExactlyTheListed := by
  intro ncur w
  by_cases hs : fieldRsvd w = 0
  swap
  · exact iff_of_true ⟨_, decode_of_rsvd_ne hs⟩ (.inr (.inl hs))
  rw [illegal_iff_not_command]
  rcases fieldOp_cases w with ho | ho | ho | ho | ho | ho | ho | ho
  · simp [decode_construct_iff hs ho, hs, ho]
  · simp [decode_get_iff hs ho, hs, ho, imp_iff_not_or]
  · simp [decode_invert_iff hs ho, hs, ho, imp_iff_not_or]
  · simp [decode_iter_iff hs ho, hs, ho, imp_iff_not_or]
  · simp [decode_range_iff hs ho, hs, ho, imp_iff_not_or]
  · simp [decode_next_iff hs ho, hs, ho, imp_iff_not_or]
  · rw [← stateRegAt_eq_none_iff]
    cases hreg : stateRegAt ncur (fieldIdx w) <;> simp [decode_readState_iff hs ho, hs, ho, hreg]
  · exact iff_of_true (illegal_iff_not_command.mp ⟨_, decode_of_reserved hs ho⟩) (.inl ho)

/-- Settles O4: the decoder run on each record. -/
theorem specRecordsDecode : Obligations.SpecRecordsDecode := by
  refine ⟨?_, ?_, ?_, ?_, ?_, ?_, ?_⟩ <;> decide

end Sys2Proof

/-! SUPPORT. How commands answer (30_encoding.md R61; 60_exceptions.md R113, R114): the response's wires, the codes of each command and the
command terms that have no record: the obligations O10, O17 and O45. -/

namespace Sys2Proof.Machine

section Answers

variable {s : State}

theorem State.cursor?_eq_none_iff {c : Byte} : s.cursor? c = none ↔ s.ncur ≤ c.toNat := List.getElem?_eq_none_iff

theorem State.not_wf_of_readReg_eq_none {reg : StateReg} (h : s.readReg reg = none) : reg.wf s.ncur = false := by
  cases reg with
  | curPos c | curEnd c =>
    have hc : s.ncur ≤ c.toNat := State.cursor?_eq_none_iff.mp (Option.map_eq_none_iff.mp h)
    simp [StateReg.wf, Nat.not_lt.mpr hc]
  | _ => cases h

/-- GET and INVERT answer OUT_OF_RANGE, or what their walk answers (44_query_commands.md R103, R104). -/
theorem queryWith_answers (u : HashPort) (d : Direction) (x : Word) (s : State) :
    ∃ t, queryWith u d x s = .next t ∧ t.cmdPhase = .resp ∧ (t.response.code ≠ .ok → t.response.value = 0) ∧
      (t.response.code = .ok ∨ t.response.code = .outOfRange ∨ t.response.code = .internalInvariantViolation) := by
  rw [queryWith]
  split
  · exact ⟨_, rfl, rfl, fun _ => rfl, .inr (.inl rfl)⟩
  · obtain hok | ⟨hcap, hvalue⟩ := walk_code u s.perm s.walkCap d x
    · exact ⟨_, rfl, rfl, fun h => absurd hok h, .inl hok⟩
    · exact ⟨_, rfl, rfl, fun _ => hvalue, .inr (.inr hcap)⟩

/-- A term whose slot or register is not in the file completes with ILLEGAL_COMMAND. -/
theorem exec_of_slot_outside {i : Instr} {c : Byte} {lo hi : Word} (hc : s.ncur ≤ c.toNat)
    (hi : i = .iter c ∨ i = .range c lo hi ∨ i = .next c ∨ i = .readState (.curPos c) ∨ i = .readState (.curEnd c)) :
    exec i s = .next (s.raise .illegalCommand) := by
  have hlt : ¬ c.toNat < s.ncur := Nat.not_lt.mpr hc
  have hnone : s.cursor? c = none := State.cursor?_eq_none hlt
  obtain rfl | rfl | rfl | rfl | rfl := hi
  · exact if_neg hlt
  · exact if_neg hlt
  · simp only [exec, execNext, nextWith, hnone]
  · simp only [exec, execReadState, State.readReg, hnone, Option.map_none]
  · simp only [exec, execReadState, State.readReg, hnone, Option.map_none]

end Answers

/-- Settles O10: the record is VALUE above CODE. -/
theorem responseRecordLayout : Obligations.ResponseRecordLayout := by
  rintro ⟨code, value⟩
  refine ⟨BitVec.extractLsb'_append_eq_left, ?_⟩
  have hcode : (rspBits ⟨code, value⟩).extractLsb' 0 8 = codeByte code := BitVec.extractLsb'_append_eq_right
  rw [hcode]
  cases code <;> rfl

/-- Settles O17: the branches of each command's meaning; the two queries and NEXT answer what their walk answers. -/
theorem everyCommandAnswersItsCodes : Obligations.EveryCommandAnswersItsCodes := by
  intro i s
  cases i with
  | construct n seed rounds =>
    simp only [exec, execConstruct]
    split_ifs
    · exact ⟨_, rfl, rfl, fun _ => rfl, nofun, rfl, .inr rfl⟩
    · exact ⟨_, rfl, rfl, fun _ => rfl, nofun, rfl, .inr rfl⟩
    · exact ⟨_, rfl, rfl, fun _ => rfl, nofun, rfl, .inl rfl⟩
  | get x =>
    obtain ⟨t, ht, hphase, hvalue, hcode⟩ := queryWith_answers s.hashPort .forward x s
    exact ⟨t, ht, hphase, hvalue, fun h => by simp [h] at hcode, hcode⟩
  | invert x =>
    obtain ⟨t, ht, hphase, hvalue, hcode⟩ := queryWith_answers s.hashPort .inverse x s
    exact ⟨t, ht, hphase, hvalue, fun h => by simp [h] at hcode, hcode⟩
  | iter c =>
    simp only [exec, execIter]
    split_ifs with hc
    · exact ⟨_, rfl, rfl, fun _ => rfl, nofun, rfl, .inl rfl⟩
    · exact ⟨_, rfl, rfl, fun _ => rfl, fun _ => decide_eq_false hc, rfl, .inr rfl⟩
  | range c lo hi =>
    simp only [exec, execRange]
    split_ifs with hc
    · exact ⟨_, rfl, rfl, fun _ => rfl, nofun, rfl, .inr (.inl rfl)⟩
    · exact ⟨_, rfl, rfl, fun _ => rfl, nofun, rfl, .inl rfl⟩
    · exact ⟨_, rfl, rfl, fun _ => rfl, fun _ => decide_eq_false hc, rfl, .inr (.inr rfl)⟩
  | next c =>
    simp only [exec, execNext, nextWith]
    split
    next hc =>
      have hout : ¬ c.toNat < s.ncur := Nat.not_lt.mpr (State.cursor?_eq_none_iff.mp hc)
      exact ⟨_, rfl, rfl, fun _ => rfl, fun _ => decide_eq_false hout, .inr (.inr (.inr rfl))⟩
    next cur _ =>
      split_ifs
      · exact ⟨_, rfl, rfl, fun _ => rfl, nofun, .inr (.inl rfl)⟩
      · obtain hok | ⟨hcap, hvalue⟩ := walk_code s.hashPort s.perm s.walkCap .forward cur.pos
        · exact ⟨_, rfl, rfl, fun h => absurd hok h, fun h => (by cases hok.symm.trans h), .inl hok⟩
        · exact ⟨_, rfl, rfl, fun _ => hvalue, fun h => (by cases hcap.symm.trans h), .inr (.inr (.inl hcap))⟩
  | readState reg =>
    simp only [exec, execReadState]
    split
    next => exact ⟨_, rfl, rfl, fun h => absurd rfl h, nofun, .inl rfl⟩
    next hreg => exact ⟨_, rfl, rfl, fun _ => rfl, fun _ => State.not_wf_of_readReg_eq_none hreg, .inr rfl⟩

/-- Settles O45: ILLEGAL_COMMAND is raised, and raising writes these four fields alone. -/
theorem slotsOutsideTheFileAreIllegal : Obligations.SlotsOutsideTheFileAreIllegal :=
  fun _ _ _ _ _ hc hi => exec_of_slot_outside hc hi

end Sys2Proof.Machine

/-! SUPPORT. CONSTRUCT and the Parameter Deriver (40_parameter_deriver.md R65-R74; 60_exceptions.md R117): what each outcome of CONSTRUCT
leads to, and how the commands after it answer on the empty domain: the obligations O18, O19, O20 and O22. -/

namespace Sys2Proof.Machine

section Construct

variable {s : State} {n seed : Word} {rounds : Byte}

theorem exec_construct_of_accepted (hn : n ≤ Config.nMax) (hr : rounds ≠ 0) :
    exec (.construct n seed rounds) s =
      .next (State.respond .ok 0 (State.clearCursors { s with perm := permOf n seed rounds })) := by
  simp only [exec, execConstruct]
  rw [if_neg (not_lt_of_word_le hn), if_neg hr]

theorem exec_construct_of_rejected (h : Config.nMax < n ∨ rounds = 0) :
    exec (.construct n seed rounds) s = .next (s.raise .invalidDomain) := by
  simp only [exec, execConstruct]
  split_ifs with hn hr
  · rfl
  · rfl
  · exact absurd h (not_or.mpr ⟨hn, hr⟩)

theorem State.clearCursors_eq_replicate (s : State) :
    s.clearCursors = { s with cursors := List.replicate s.ncur { pos := 0, stop := 0 } } := by
  rw [State.clearCursors, List.map_const', State.ncur]

end Construct

section Answers

variable {s t : State} {c : Byte} {lo hi x : Word}

theorem responseTo_of_exec {i : Instr} (h : exec i s = .next t) : responseTo i s = some t.response := by
  rw [responseTo, h]

theorem exec_get_of_le (hx : s.perm.n ≤ x) : exec (.get x) s = .next (s.raise .outOfRange) := if_pos hx

theorem exec_invert_of_le (hx : s.perm.n ≤ x) : exec (.invert x) s = .next (s.raise .outOfRange) := if_pos hx

theorem exec_iter_of_lt (hc : c.toNat < s.ncur) : exec (.iter c) s = .next (s.openCursor c 0 s.perm.n) := if_pos hc

theorem exec_range_of_le (hc : c.toNat < s.ncur) (hlo : lo ≤ hi) (hhi : hi ≤ s.perm.n) :
    exec (.range c lo hi) s = .next (s.openCursor c lo hi) :=
  (if_pos hc).trans (if_neg (not_or.mpr ⟨not_lt_of_word_le hlo, not_lt_of_word_le hhi⟩))

theorem exec_range_of_bad_interval (hc : c.toNat < s.ncur) (h : hi < lo ∨ s.perm.n < hi) :
    exec (.range c lo hi) s = .next (s.raise .invalidRange) :=
  (if_pos hc).trans (if_pos h)

theorem exec_next_of_exhausted {cur : Cursor} (hc : s.cursor? c = some cur) (h : cur.stop ≤ cur.pos) :
    exec (.next c) s = .next (s.raise .endOfSequence) := by
  simp only [exec, execNext, nextWith, hc]
  exact if_pos h

/-- NEXT on a slot that was opened on an empty interval (45_iteration_commands.md R108). -/
theorem responseTo_next_openCursor_of_le (hc : c.toNat < s.ncur) (h : hi ≤ lo) :
    responseTo (.next c) (s.openCursor c lo hi).release = some { code := .endOfSequence, value := 0 } :=
  have hcur : (s.openCursor c lo hi).release.cursor? c = some { pos := lo, stop := hi } :=
    State.cursor?_setCursor_self hc
  responseTo_of_exec (exec_next_of_exhausted hcur h)

end Answers

/-- Settles O18: the Permutation is `permOf`, which is legal, and the least width `b0` is `unroundedWidth`. -/
theorem constructLoadsThePermutation : Obligations.ConstructLoadsThePermutation := by
  intro n seed rounds s hn hr
  obtain ⟨hb, hh, hm, -⟩ := (permOf_legal (seed := seed) hn hr).geometry_toNat
  refine ⟨unroundedWidth n.toNat, permOf n seed rounds, ?_, rfl, rfl, rfl, le_two_pow_unroundedWidth _,
    fun _ => unroundedWidth_le_of_le_two_pow, hb, hh, hm⟩
  rw [exec_construct_of_accepted hn hr, State.clearCursors_eq_replicate]
  rfl

/-- Settles O22: the Deriver's arithmetic; a nonzero even width is at least 2. -/
theorem geometryBounds : Obligations.GeometryBounds := by
  intro n hn
  have heven := blockWidth_eq_two_mul n
  have hzero := blockWidth_eq_zero_iff n
  exact ⟨by omega, le_two_pow_blockWidth n, hzero, fun h2 => ⟨by omega, two_pow_blockWidth_lt h2⟩,
    blockWidth_le hn, halfWidth_le hn⟩

/-- Settles O19: a rejected CONSTRUCT raises INVALID_DOMAIN, and raising writes these four fields alone. -/
theorem constructRejectsBadDomain : Obligations.ConstructRejectsBadDomain :=
  fun _ _ _ _ => ⟨exec_construct_of_rejected, fun hn hr => ⟨_, exec_construct_of_accepted hn hr, rfl⟩⟩

/-- Settles O20: with N = 0 every operand is out of range, and (0, 0) is the one interval RANGE accepts. -/
theorem emptyDomainPolicy : Obligations.EmptyDomainPolicy := by
  intro s seed rounds hr
  refine ⟨_, exec_construct_of_accepted (word_zero_le _) hr, rfl, fun x => ?_, fun c hc => ?_⟩
  · exact ⟨responseTo_of_exec (exec_get_of_le (word_zero_le x)),
      responseTo_of_exec (exec_invert_of_le (word_zero_le x))⟩
  · generalize ht : State.release _ = t
    have hn : t.perm.n = 0 := by rw [← ht]; rfl
    have hslot : c.toNat < t.ncur := by
      rw [← ht, State.ncur_release, State.ncur_respond, State.ncur_clearCursors]
      exact hc
    refine ⟨⟨_, exec_iter_of_lt hslot, rfl, ?_⟩,
      ⟨_, exec_range_of_le hslot (word_zero_le 0) (word_zero_le _), rfl, ?_⟩, fun lo hi hne => ?_⟩
    · rw [hn]
      exact responseTo_next_openCursor_of_le hslot (word_zero_le 0)
    · exact responseTo_next_openCursor_of_le hslot (word_zero_le 0)
    · have hbad : hi < lo ∨ t.perm.n < hi := by
        rw [hn]
        by_contra hgood
        exact hne (by bv_omega)
      exact responseTo_of_exec (exec_range_of_bad_interval hslot hbad)

end Sys2Proof.Machine

/-! SUPPORT. The message encoding and the Round Function (41_round_function.md R76-R81; 20_memory.md R38; 93_implementation_defined.md I2): the
default encoding's bytes, encodings as functions of the whole triple (seed, r, x): the obligations O23, O24, O25 and O60. -/

namespace Sys2Proof.Machine

section Encodings

/-- The bytes of a message of three fields, the first field lowest on the bus (30_encoding.md R62). -/
theorem messageBytes_append (a b c : Word) : messageBytes (c ++ b ++ a) = le64 a ++ le64 b ++ le64 c := by
  have hlow : ∀ k < 8, (c ++ b ++ a).extractLsb' (8 * k) 8 = a.extractLsb' (8 * k) 8 := fun k hk =>
    BitVec.extractLsb'_append_eq_of_add_le (by omega)
  have hmid : ∀ k < 8, (c ++ b ++ a).extractLsb' (8 * (8 + k)) 8 = b.extractLsb' (8 * k) 8 := fun k hk => by
    rw [BitVec.extractLsb'_append_eq_of_le (by omega), BitVec.extractLsb'_append_eq_of_add_le (by omega),
      show 8 * (8 + k) - 64 = 8 * k by omega]
  have hhigh : ∀ k, (c ++ b ++ a).extractLsb' (8 * (16 + k)) 8 = c.extractLsb' (8 * k) 8 := fun k => by
    rw [BitVec.extractLsb'_append_eq_of_le (by omega), BitVec.extractLsb'_append_eq_of_le (by omega),
      show 8 * (16 + k) - 64 - 64 = 8 * k by omega]
  have hrange : List.range 24 = List.range 8 ++ (List.range 8).map (8 + ·) ++ (List.range 8).map (16 + ·) := rfl
  simp only [messageBytes, le64, hrange, List.map_append, List.map_map]
  refine congrArg₂ (· ++ ·) (congrArg₂ (· ++ ·) ?_ ?_) ?_
  · exact List.map_congr_left fun k hk => hlow k (List.mem_range.mp hk)
  · exact List.map_congr_left fun k hk => hmid k (List.mem_range.mp hk)
  · exact List.map_congr_left fun k _ => hhigh k

/-- An encoding as a function of the one triple `(seed, r, x)`. -/
def ofTriple (en : Enc) (q : Word × Byte × Half) : Message := en q.1 q.2.1 q.2.2

theorem setWidth_injective {v w : Nat} (h : v ≤ w) : Function.Injective (BitVec.setWidth w : BitVec v → BitVec w) :=
  fun a b hab => by
    have := congrArg (BitVec.setWidth v) hab
    rwa [BitVec.setWidth_setWidth_of_le a h, BitVec.setWidth_setWidth_of_le b h, BitVec.setWidth_eq, BitVec.setWidth_eq] at this

theorem append_eq_append {v w : Nat} {a a' : BitVec v} {b b' : BitVec w} (h : a ++ b = a' ++ b') : a = a' ∧ b = b' := by
  have hlow := congrArg (BitVec.extractLsb' 0 w) h
  have hhigh := congrArg (BitVec.extractLsb' w v) h
  rw [BitVec.extractLsb'_append_eq_right, BitVec.extractLsb'_append_eq_right] at hlow
  rw [BitVec.extractLsb'_append_eq_left, BitVec.extractLsb'_append_eq_left] at hhigh
  exact ⟨hhigh, hlow⟩

/-- The default encoding is injective: each field is read back from its place (41_round_function.md R79). -/
theorem ofTriple_enc_injective : Function.Injective (ofTriple enc) := by
  rintro ⟨seed, r, x⟩ ⟨seed', r', x'⟩ h
  obtain ⟨hxr, rfl⟩ := append_eq_append h
  obtain ⟨hx, hr⟩ := append_eq_append hxr
  obtain rfl : x = x' := setWidth_injective (by decide) hx
  obtain rfl : r = r' := setWidth_injective (by decide) hr
  rfl

/-- So is every encoding a machine can be built with: a permutation of the messages keeps them distinct. -/
theorem Encoding.ofTriple_enc_injective (en : Encoding) : Function.Injective (ofTriple en.enc) := by
  cases en with
  | littleEndian => exact Machine.ofTriple_enc_injective
  | substitute => exact Config.encSubstitute.injective.comp Machine.ofTriple_enc_injective

theorem ofTriple_injective_iff {en : Enc} : Function.Injective (ofTriple en) ↔
    ∀ (seed seed' : Word) (r r' : Byte) (x x' : Half), en seed r x = en seed' r' x' → seed = seed' ∧ r = r' ∧ x = x' := by
  constructor
  · intro h seed seed' r r' x x' he
    have hq : (seed, r, x) = (seed', r', x') := h he
    simpa only [Prod.mk.injEq] using hq
  · rintro h ⟨seed, r, x⟩ ⟨seed', r', x'⟩ he
    obtain ⟨rfl, rfl, rfl⟩ := h _ _ _ _ _ _ he
    rfl

/-- Two injections of a type into a finite one differ by a permutation of the latter: match their ranges point by point and extend. -/
theorem exists_perm_comp_eq {α β : Type} [Finite β] {f g : α → β} (hf : Function.Injective f) (hg : Function.Injective g) :
    ∃ π : Equiv.Perm β, ∀ a, g a = π (f a) := by
  classical
  let e : {b // b ∈ Set.range f} ≃ {b // b ∈ Set.range g} := (Equiv.ofInjective f hf).symm.trans (Equiv.ofInjective g hg)
  refine ⟨e.extendSubtype, fun a => ?_⟩
  rw [Equiv.extendSubtype_apply_of_mem e (f a) ⟨a, rfl⟩, Equiv.trans_apply, Equiv.ofInjective_symm_apply,
    Equiv.ofInjective_apply]

end Encodings

/-- A value that fits the mask is its own reduction (41_round_function.md R77). -/
theorem reduceDigest_of_le {p : Perm} (hp : p.Legal) {v : Half} (hv : v ≤ p.halfMask) :
    reduceDigest p (v.setWidth 64) = v := by
  refine BitVec.eq_of_toNat_eq ?_
  rw [toNat_reduceDigest hp, BitVec.toNat_setWidth_of_le (by decide), Nat.mod_eq_of_lt (toNat_lt_of_le_mask hp hv)]

/-- Settles O23: the message is its three fields side by side. -/
theorem encodingIsLittleEndianAndInjective : Obligations.EncodingIsLittleEndianAndInjective := fun seed r x =>
  ⟨messageBytes_append seed (r.setWidth 64) (x.setWidth 64),
    fun seed' r' x' => ofTriple_injective_iff.mp ofTriple_enc_injective seed seed' r r' x x'⟩

/-- Settles O24: F is the reduced digest, and reducing keeps the low H bits. -/
theorem roundFunctionKeepsLowBits : Obligations.RoundFunctionKeepsLowBits :=
  fun u p r x hp => toNat_reduceDigest hp (u.hash (u.enc p.seed r x))

/-- Settles O25: the hash that gives each message the value of G at the one triple it encodes, and any other message 0. -/
theorem anyRoundFunctionIsSomeHash : Obligations.AnyRoundFunctionIsSomeHash := by
  intro en p G hp hG
  refine ⟨Function.extend (ofTriple en.enc) (fun q => (G q.1 q.2.1 q.2.2).setWidth 64) 0, fun seed r x => ?_⟩
  have hdigest := en.ofTriple_enc_injective.extend_apply (fun q => (G q.1 q.2.1 q.2.2).setWidth 64) 0 (seed, r, x)
  calc reduceDigest p (Function.extend (ofTriple en.enc) _ 0 (ofTriple en.enc (seed, r, x)))
      _ = reduceDigest p ((G seed r x).setWidth 64) := congrArg (reduceDigest p) hdigest
      _ = G seed r x := reduceDigest_of_le hp (hG seed r x)

/-- Settles O60: both forms of ENC are injective, and an injective encoding differs from the default one by a permutation of the messages. -/
theorem encodingParameterIsAnyInjectiveEncoding : Obligations.EncodingParameterIsAnyInjectiveEncoding := by
  refine ⟨fun s seed r x => ⟨fun seed' r' x' => ?_, fun hen => ?_⟩, fun en hen => ?_⟩
  · exact ofTriple_injective_iff.mp s.encoding.ofTriple_enc_injective seed seed' r r' x x'
  · rw [State.hashPort, hen]
    exact messageBytes_append seed (r.setWidth 64) (x.setWidth 64)
  · obtain ⟨π, hπ⟩ := exists_perm_comp_eq ofTriple_enc_injective (ofTriple_injective_iff.mpr hen)
    exact ⟨π, fun seed r x => hπ (seed, r, x)⟩

end Sys2Proof.Machine

/-! SUPPORT. The hash transaction edge by edge (41_round_function.md R82-R84; 93_implementation_defined.md I4): what an edge of a walk does in each
phase, and the edges that do nothing: the obligations O53, O54 and O55. -/

namespace Sys2Proof.Machine

section Phases

variable {s : State} {en : Enc} {i : Instr} {d : Direction} {x0 : Word} {e : PortIn}

theorem State.walkEdge_of_hidle (h : s.hashPhase = .hidle) : s.walkEdge en i d e =
    { s with hashPhase := .hreq, hashMsg := en s.perm.seed s.dp.r (roundInput s.dp.lanes d) } := by
  rw [State.walkEdge, h]

theorem State.walkEdge_of_hreq (h : s.hashPhase = .hreq) : s.walkEdge en i d e =
    if e.hashReqReady then { s with hashPhase := .hwait, hashSent := s.hashSent ++ [s.hashMsg] } else s := by
  rw [State.walkEdge, h]

theorem State.walkEdge_of_hwait (h : s.hashPhase = .hwait) : s.walkEdge en i d e =
    if e.hashRspValid then s.takeDigest i d e.hashRspData else s := by
  rw [State.walkEdge, h]

/-- The digest ends the transaction and sends no message, whatever it makes of the walk. -/
theorem State.takeDigest_transaction (i : Instr) (d : Direction) (g : Word) (s : State) :
    (s.takeDigest i d g).hashPhase = .hidle ∧ (s.takeDigest i d g).hashSent = s.hashSent := by
  have hclose (w : WalkResult) (hw : w.sent = []) :
      (s.closeWalk i w).hashPhase = .hidle ∧ (s.closeWalk i w).hashSent = s.hashSent := by
    obtain ⟨-, -, -, -, -, -, -, -, hphase, hsent, -⟩ := State.closeWalk_keeps i w s
    rw [hw, List.append_nil] at hsent
    exact ⟨hphase, hsent⟩
  rcases State.takeDigest_cases i d g s with ⟨-, h⟩ | ⟨-, -, h⟩ | ⟨-, -, h⟩ <;> rw [h]
  · exact ⟨rfl, rfl⟩
  · exact hclose _ rfl
  · rcases State.walkTurn_cases i d _ _ s with ⟨-, h⟩ | ⟨-, h⟩ <;> rw [h]
    · exact hclose _ rfl
    · exact ⟨rfl, rfl⟩

/-- A command's walk is under way, the hash unit on its pins. -/
structure WalkOnPins (s : State) (i : Instr) (d : Direction) (x0 : Word) : Prop where
  unit : s.hashUnit = .pins
  phase : s.cmdPhase = .exec
  walking : s.walking = true
  command : decode s.ncur s.cmdData = .command i
  request : s.walkRequest i = some (d, x0)

theorem WalkOnPins.step (h : WalkOnPins s i d x0) (hr : s.pinsNow.rst = false) :
    step s = .next (s.tick.walkEdge s.hashPort.enc i d s.pinsNow) :=
  step_of_walking h.unit h.phase hr h.walking h.command h.request

end Phases

/-- Settles O53: an edge of a walk, phase by phase. -/
theorem hashTransactionPhases : Obligations.HashTransactionPhases := by
  intro s i d x0 hu hp hr hk hd hw
  have hstep := WalkOnPins.step ⟨hu, hp, hk, hd, hw⟩ hr
  refine ⟨fun h => ?_, fun h => ?_, fun h hv => ?_, fun h hv => ?_⟩
  · rw [hstep, State.walkEdge_of_hidle (s := s.tick) h]
    cases d <;> rfl
  · rw [hstep, State.walkEdge_of_hreq (s := s.tick) h]
    rfl
  · rw [hstep, State.walkEdge_of_hwait (s := s.tick) h, if_neg (Bool.eq_false_iff.mp hv)]
    rfl
  · rw [State.walkEdge_of_hwait (s := s.tick) h, if_pos hv] at hstep
    obtain ⟨hphase, hsent⟩ := State.takeDigest_transaction i d s.pinsNow.hashRspData s.tick
    exact ⟨_, hstep, hphase, hsent⟩

section DigestPins

variable {s : State} (h : s.hashPhase ≠ .hwait) (e : PortIn) (valid : Bool) (data : Word)
include h

theorem State.walkEdge_digest_pins (en : Enc) (i : Instr) (d : Direction) :
    s.walkEdge en i d { e with hashRspValid := valid, hashRspData := data } = s.walkEdge en i d e := by
  cases hph : s.hashPhase with
  | hidle => rw [State.walkEdge_of_hidle hph, State.walkEdge_of_hidle hph]
  | hreq => rw [State.walkEdge_of_hreq hph, State.walkEdge_of_hreq hph]
  | hwait => exact absurd hph h

/-- Nothing but the edge of a walk looks at the digest pins. -/
theorem State.edge_digest_pins :
    s.edge { e with hashRspValid := valid, hashRspData := data } = s.edge e := by
  simp only [State.edge, State.executeEdge, State.execEdge, State.walkEdge_digest_pins h]

end DigestPins

/-- Settles O54: outside HWAIT no part of an edge looks at the digest pins. -/
theorem unsolicitedDigestIsIgnored : Obligations.UnsolicitedDigestIsIgnored :=
  fun s e rest valid data h => State.edge_digest_pins (s := { s with io := rest }) h e valid data

section Stall

variable {s : State} {i : Instr} {d : Direction} {x0 : Word}

/-- What the samples to come all have, and the quiet pins after them, the coming edge has. -/
theorem State.pinsNow_of_forall_io {P : PortIn → Prop} (hio : ∀ e ∈ s.io, P e) (hq : P quietPins) : P s.pinsNow := by
  rw [State.pinsNow]
  cases hs : s.io with
  | nil => exact hq
  | cons e es => exact hio e (hs ▸ List.mem_cons_self)

/-- The walk waits for the hash unit, which stays silent for as long as samples are listed, and no reset comes (41_round_function.md R84). -/
structure Stalled (s : State) (i : Instr) (d : Direction) (x0 : Word) : Prop extends WalkOnPins s i d x0 where
  noReset : ∀ e ∈ s.io, e.rst = false
  silent : s.hashPhase = .hwait ∧ (∀ e ∈ s.io, e.hashRspValid = false) ∨
    s.hashPhase = .hreq ∧ ∀ e ∈ s.io, e.hashReqReady = false

theorem Stalled.step (h : Stalled s i d x0) : step s = .next s.tick := by
  rw [h.toWalkOnPins.step (State.pinsNow_of_forall_io h.noReset rfl)]
  obtain ⟨hphase, hpin⟩ | ⟨hphase, hpin⟩ := h.silent
  · rw [State.walkEdge_of_hwait (s := s.tick) hphase,
      if_neg (Bool.eq_false_iff.mp (State.pinsNow_of_forall_io hpin rfl))]
  · rw [State.walkEdge_of_hreq (s := s.tick) hphase,
      if_neg (Bool.eq_false_iff.mp (State.pinsNow_of_forall_io hpin rfl))]

theorem Stalled.tick (h : Stalled s i d x0) : Stalled s.tick i d x0 where
  unit := h.unit
  phase := h.phase
  walking := h.walking
  command := h.command
  request := (State.walkRequest_tick s i).trans h.request
  noReset := fun e he => h.noReset e (List.mem_of_mem_tail he)
  silent := h.silent.imp (And.imp_right fun hp e he => hp e (List.mem_of_mem_tail he))
    (And.imp_right fun hp e he => hp e (List.mem_of_mem_tail he))

/-- Each step of a stalled walk uses up one sample and leaves it stalled. -/
theorem Stalled.run (h : Stalled s i d x0) (k : Nat) :
    Host.Core.run core k s = .next { s with io := s.io.drop k } := by
  induction k generalizing s with
  | zero => rfl
  | succ k ih =>
    have hstep : core.step s = .next s.tick := h.step
    simp only [Host.Core.run, hstep]
    rw [ih h.tick, ← List.drop_tail]
    rfl

end Stall

/-- Settles O55: a stalled walk stays stalled, in EXEC, where neither a command is taken nor a response offered. -/
theorem silentHashUnitStallsTheCommand : Obligations.SilentHashUnitStallsTheCommand := by
  intro s i d x0 k hu hp hk hd hw hrst hsilent
  have hstall : Stalled s i d x0 := ⟨⟨hu, hp, hk, hd, hw⟩, hrst, hsilent⟩
  exact ⟨hstall.run k, by simp [State.outputs, hp], by simp [State.outputs, hp]⟩

end Sys2Proof.Machine

/-! SUPPORT. How far a walk has come, apart from the state that holds it (42_feistel_engine.md R87, R88, R92; 43_cycle_walker.md R94): what is
left of `walk` at the top of the loop and at each round, and how many rounds are still to run. -/

namespace Sys2Proof.Machine

section Progress

/-- The result of a walk that had sent `sent` before. -/
def WalkResult.after (sent : List Message) (w : WalkResult) : WalkResult := { w with sent := sent ++ w.sent }

/-- The walk from `x0` stands at the top of its loop (43_cycle_walker.md R94) at the value `x` after `k` steps, which sent `sent`. -/
structure AtTurn (u : HashPort) (p : Perm) (cap : Word) (d : Direction) (x0 : Word) (k x : Word) (sent : List Message) : Prop where
  k_le : k ≤ cap
  rest : walk u p cap d x0 = (walkLoop u p d (cap.toNat - k.toNat) k.toNat x).after sent

/-- The walk from `x0` stands before round `dp.r` of the pass the datapath `dp` is in; all its rounds so far sent `sent`. -/
structure AtRound (u : HashPort) (p : Perm) (cap : Word) (d : Direction) (x0 : Word) (dp : Datapath) (sent : List Message) : Prop where
  k_lt : dp.k < cap
  r_lt : dp.r < p.rounds
  progress : ∃ before pass, sent = before ++ pass ∧ AtTurn u p cap d x0 dp.k dp.x before ∧
    PassAt u p dp.x dp.r.toNat dp.lanes pass d

/-- The datapath at the start of a pass. -/
def passStart (p : Perm) (d : Direction) (k x : Word) : Datapath :=
  { x := x, k := k, r := firstRound p d, lanes := splitBlock p x }

/-- The message of the coming round (42_feistel_engine.md R92). -/
def roundMessage (u : HashPort) (p : Perm) (d : Direction) (dp : Datapath) : Message :=
  u.enc p.seed dp.r (roundInput dp.lanes d)

/-- The halves after the coming round (42_feistel_engine.md R87, R88). -/
def roundLanes (u : HashPort) (p : Perm) (d : Direction) (dp : Datapath) : Lanes :=
  mixRound (reduceDigest p (u.hash (roundMessage u p d dp))) dp.lanes d

variable {u : HashPort} {p : Perm} {cap : Word} {d : Direction} {x0 k x : Word} {dp : Datapath} {sent : List Message}

theorem walkLoop_of_lt {left n : Nat} (h : applyStep u p d x < p.n) : walkLoop u p d (left + 1) n x =
    { code := .ok, value := applyStep u p d x, steps := n + 1, sent := stepMessages u p d x } := if_pos h

theorem walkLoop_of_not_lt {left n : Nat} (h : ¬ applyStep u p d x < p.n) : walkLoop u p d (left + 1) n x =
    (walkLoop u p d left (n + 1) (applyStep u p d x)).after (stepMessages u p d x) := if_neg h

theorem WalkResult.after_after (a b : List Message) (w : WalkResult) : (w.after b).after a = w.after (a ++ b) := by
  simp only [WalkResult.after, List.append_assoc]

theorem atTurn_start (hb : p.b ≠ 0) : AtTurn u p cap d x0 0 x0 [] :=
  ⟨word_zero_le cap, if_neg hb⟩

theorem AtTurn.walk_of_capped (h : AtTurn u p cap d x0 cap x sent) :
    walk u p cap d x0 = { code := .internalInvariantViolation, value := 0, steps := cap.toNat, sent := sent } := by
  rw [h.rest, Nat.sub_self, walkLoop, WalkResult.after, List.append_nil]

theorem AtTurn.atRound (hp : p.Legal) (h : AtTurn u p cap d x0 k x sent) (hk : k ≠ cap) :
    AtRound u p cap d x0 (passStart p d k x) sent where
  k_lt := by
    have hle := BitVec.le_def.mp h.k_le
    have hne : k.toNat ≠ cap.toNat := fun he => hk (BitVec.eq_of_toNat_eq he)
    exact BitVec.lt_def.mpr (by omega : k.toNat < cap.toNat)
  r_lt := firstRound_lt hp d
  progress := ⟨sent, [], (List.append_nil sent).symm, h, passAt_first u hp x d⟩

theorem AtRound.next (hp : p.Legal) (h : AtRound u p cap d x0 dp sent) (hr : dp.r ≠ lastRound p d) :
    AtRound u p cap d x0 { dp with r := nextRound dp.r d, lanes := roundLanes u p d dp } (sent ++ [roundMessage u p d dp]) := by
  obtain ⟨before, pass, rfl, hturn, hpass⟩ := h.progress
  exact ⟨h.k_lt, nextRound_lt hp h.r_lt hr, before, pass ++ [roundMessage u p d dp], List.append_assoc _ _ _, hturn,
    passAt_next hp h.r_lt hr hpass⟩

/-- The last round of a pass has applied the step function: the walk ends there with a value below N, or is at the top of its loop again. -/
theorem AtRound.last (hp : p.Legal) (h : AtRound u p cap d x0 dp sent) (hr : dp.r = lastRound p d) :
    (packBlock p (roundLanes u p d dp) < p.n → walk u p cap d x0 =
      { code := .ok, value := packBlock p (roundLanes u p d dp), steps := (dp.k + 1).toNat,
        sent := sent ++ [roundMessage u p d dp] }) ∧
    (¬ packBlock p (roundLanes u p d dp) < p.n →
      AtTurn u p cap d x0 (dp.k + 1) (packBlock p (roundLanes u p d dp)) (sent ++ [roundMessage u p d dp])) := by
  obtain ⟨before, pass, rfl, hturn, hpass⟩ := h.progress
  obtain ⟨hvalue, hsent⟩ := passAt_last hp hr hpass
  obtain ⟨hsucc, hle⟩ := succ_of_lt h.k_lt
  have hlt := BitVec.lt_def.mp h.k_lt
  have hleft : cap.toNat - dp.k.toNat = cap.toNat - (dp.k + 1).toNat + 1 := by omega
  have hblock : packBlock p (roundLanes u p d dp) = applyStep u p d dp.x := hvalue
  have hmessages : before ++ pass ++ [roundMessage u p d dp] = before ++ stepMessages u p d dp.x := by
    rw [List.append_assoc, ← hsent]
    rfl
  have hrest := hturn.rest
  rw [hleft] at hrest
  rw [hblock, hmessages]
  refine ⟨fun hin => ?_, fun hout => ⟨hle, ?_⟩⟩
  · rw [hrest, walkLoop_of_lt hin, hsucc]
    rfl
  · rw [hrest, walkLoop_of_not_lt hout, WalkResult.after_after, hsucc]

/-- The rounds of a pass from round `r` on. -/
def passRoundsLeft (p : Perm) (r : Byte) : Direction → Nat
  | .forward => p.rounds.toNat - r.toNat
  | .inverse => r.toNat + 1

/-- The rounds a walk has still to run if no pass before the cap ends it. -/
def roundsLeft (p : Perm) (cap : Word) (d : Direction) (dp : Datapath) : Nat :=
  p.rounds.toNat * (cap.toNat - (dp.k.toNat + 1)) + passRoundsLeft p dp.r d

theorem passRoundsLeft_firstRound (hp : p.Legal) (d : Direction) : passRoundsLeft p (firstRound p d) d = p.rounds.toNat := by
  cases d with
  | forward => exact Nat.sub_zero _
  | inverse => exact toNat_pred hp

theorem passRoundsLeft_pos {r : Byte} (hr : r < p.rounds) (d : Direction) : 0 < passRoundsLeft p r d := by
  cases d with
  | forward => exact Nat.sub_pos_of_lt (BitVec.lt_def.mp hr)
  | inverse => exact Nat.succ_pos _

theorem passRoundsLeft_nextRound (hp : p.Legal) {r : Byte} (hr : r < p.rounds) (hl : r ≠ lastRound p d) :
    passRoundsLeft p (nextRound r d) d < passRoundsLeft p r d := by
  have hpred := toNat_pred hp
  have hr' := BitVec.lt_def.mp hr
  have hne : r.toNat ≠ (lastRound p d).toNat := fun e => hl (BitVec.eq_of_toNat_eq e)
  have hmax := p.rounds.isLt
  cases d with
  | forward =>
    simp only [lastRound] at hne
    simp only [passRoundsLeft, nextRound, BitVec.toNat_add, BitVec.reduceToNat]
    omega
  | inverse =>
    simp only [lastRound, BitVec.reduceToNat] at hne
    simp only [passRoundsLeft, nextRound, BitVec.toNat_sub, BitVec.reduceToNat]
    omega

/-- Each pass has ROUNDS rounds. -/
theorem roundsLeft_passStart (hp : p.Legal) (hk : k < cap) :
    roundsLeft p cap d (passStart p d k x) = p.rounds.toNat * (cap.toNat - k.toNat) := by
  have hlt := BitVec.lt_def.mp hk
  have hleft : cap.toNat - k.toNat = cap.toNat - (k.toNat + 1) + 1 := by omega
  simp only [roundsLeft, passStart, passRoundsLeft_firstRound hp]
  rw [hleft, Nat.mul_succ]

end Progress

end Sys2Proof.Machine

/-! SUPPORT. A walk run on the hash port's pins against exec (41_round_function.md R80, R82, R84; 70_reset_and_hazards.md R136, R139): the states of a
walk under way, what an edge makes of them while the hash unit keeps its contract, and that the walk ends as exec does: the obligations O57 and O58. -/

namespace Sys2Proof.Machine

/-- `t` shows the host what executing `i` from `s` shows. -/
def Answered (s : State) (i : Instr) (t : State) : Prop := ∃ v, exec i s = .next v ∧ t.visible = v.visible

theorem Answered.cmdPhase {s t : State} {i : Instr} (h : Answered s i t) : t.cmdPhase = .resp := by
  obtain ⟨v, hv, hvis⟩ := h
  obtain ⟨v', hv', hphase, -⟩ := everyCommandAnswersItsCodes i s
  cases hv.symm.trans hv'
  exact (congrArg Visible.cmdPhase hvis).trans hphase

/-- A legal state whose latched command `i` asks for a walk, the hash unit on its pins. -/
structure AsksWalk (s : State) (i : Instr) (d : Direction) (x0 : Word) : Prop where
  legal : s.Legal
  unit : s.hashUnit = .pins
  phase : s.cmdPhase = .exec
  command : decode s.ncur s.cmdData = .command i
  request : s.walkRequest i = some (d, x0)

/-- `s` with its command's walk under way: the datapath `dp`, the hash transaction in phase `ph` with the message `msg`, the messages `sent` sent
since, the samples `io` to come. -/
def State.inWalk (dp : Datapath) (ph : HashPhase) (msg : Message) (sent : List Message) (io : List PortIn) (s : State) : State :=
  { s with walking := true, dp := dp, hashPhase := ph, hashMsg := msg, hashSent := s.hashSent ++ sent, io := io }

/-- The walk `s` asks for stands before round `dp.r` of the pass `dp` is in. -/
def State.AtRound (s : State) (d : Direction) (x0 : Word) (dp : Datapath) (sent : List Message) : Prop :=
  Machine.AtRound s.hashPort s.perm s.walkCap d x0 dp sent

section Edges

variable {s : State} {i : Instr} {d : Direction} {x0 : Word} {dp : Datapath} {ph : HashPhase} {msg : Message}
  {sent : List Message} {io : List PortIn}

theorem AsksWalk.walkOnPins (h : AsksWalk s i d x0) : WalkOnPins (s.inWalk dp ph msg sent io) i d x0 where
  unit := h.unit
  phase := h.phase
  walking := rfl
  command := h.command
  request := (State.walkRequest_congr rfl rfl i).trans h.request

theorem AsksWalk.step_hidle (h : AsksWalk s i d x0) (hr : (io.headD quietPins).rst = false) :
    step (s.inWalk dp .hidle msg sent io) =
      .next (s.inWalk dp .hreq (roundMessage s.hashPort s.perm d dp) sent io.tail) := by
  rw [h.walkOnPins.step hr, State.walkEdge_of_hidle rfl]
  rfl

theorem AsksWalk.step_hreq (h : AsksWalk s i d x0) (hr : (io.headD quietPins).rst = false) :
    step (s.inWalk dp .hreq msg sent io) = .next (if (io.headD quietPins).hashReqReady
      then s.inWalk dp .hwait msg (sent ++ [msg]) io.tail else s.inWalk dp .hreq msg sent io.tail) := by
  rw [h.walkOnPins.step hr, State.walkEdge_of_hreq rfl]
  simp only [State.inWalk, State.tick, State.pinsNow, List.append_assoc]

theorem AsksWalk.step_hwait (h : AsksWalk s i d x0) (hr : (io.headD quietPins).rst = false) :
    step (s.inWalk dp .hwait msg sent io) = .next (if (io.headD quietPins).hashRspValid
      then (s.inWalk dp .hwait msg sent io.tail).takeDigest i d (io.headD quietPins).hashRspData
      else s.inWalk dp .hwait msg sent io.tail) := by
  rw [h.walkOnPins.step hr, State.walkEdge_of_hwait rfl]
  rfl

/-- A walk's end writes the same whether the messages went out on the way or are sent with the result: only hidden registers and the samples
differ. -/
theorem State.visible_closeWalk_inWalk (w : WalkResult) :
    ((s.inWalk dp ph msg w.sent io).closeWalk i { w with sent := [] }).visible = (s.closeWalk i w).visible := by
  have hquery : ((s.inWalk dp ph msg w.sent io).closeQuery { w with sent := [] }).visible = (s.closeQuery w).visible := by
    simp [State.visible, State.closeQuery, State.inWalk]
  cases i with
  | next c =>
    have hcursor : (s.inWalk dp ph msg w.sent io).cursor? c = s.cursor? c := rfl
    simp only [State.closeWalk, hcursor]
    cases s.cursor? c with
    | none => exact hquery
    | some cur => simp [State.visible, State.closeNext, State.inWalk, advanceCursor]
  | _ => exact hquery

theorem AsksWalk.answered_closeWalk (h : AsksWalk s i d x0) {w : WalkResult}
    (hw : walk s.hashPort s.perm s.walkCap d x0 = w) :
    Answered s i ((s.inWalk dp ph msg w.sent io).closeWalk i { w with sent := [] }) :=
  ⟨_, exec_of_walkRequest h.request, by rw [hw, State.visible_closeWalk_inWalk]⟩

/-- The top of the loop starts a pass, or ends the walk at the cap. -/
theorem AsksWalk.walkTurn (h : AsksWalk s i d x0) {k x : Word}
    (hturn : AtTurn s.hashPort s.perm s.walkCap d x0 k x sent) :
    (k < s.walkCap ∧ s.AtRound d x0 (passStart s.perm d k x) sent ∧ ∀ dp ph msg io,
      (s.inWalk dp ph msg sent io).walkTurn i d k x = s.inWalk (passStart s.perm d k x) .hidle msg sent io) ∨
    ∀ dp ph msg io, Answered s i ((s.inWalk dp ph msg sent io).walkTurn i d k x) := by
  by_cases hk : k = s.walkCap
  · subst hk
    refine .inr fun dp ph msg io => ?_
    have hcap : (s.inWalk dp ph msg sent io).walkTurn i d s.walkCap x = (s.inWalk dp ph msg sent io).closeWalk i _ := if_pos rfl
    rw [hcap]
    exact h.answered_closeWalk hturn.walk_of_capped
  · have hat := hturn.atRound h.legal.perm hk
    exact .inl ⟨hat.k_lt, hat, fun dp ph msg io => if_neg hk⟩

/-- The digest of the round's message `m` leads to a round closer to the cap, or to the answer; which of the two does not depend on the samples
to come. -/
theorem AsksWalk.takeDigest (h : AsksWalk s i d x0) (hat : s.AtRound d x0 dp sent) {m : Message}
    (hm : roundMessage s.hashPort s.perm d dp = m) (msg : Message) :
    (∃ dp', s.AtRound d x0 dp' (sent ++ [m]) ∧ roundsLeft s.perm s.walkCap d dp' < roundsLeft s.perm s.walkCap d dp ∧
      ∀ io, (s.inWalk dp .hwait msg (sent ++ [m]) io).takeDigest i d (Config.hash m) =
        s.inWalk dp' .hidle msg (sent ++ [m]) io) ∨
    ∀ io, Answered s i ((s.inWalk dp .hwait msg (sent ++ [m]) io).takeDigest i d (Config.hash m)) := by
  subst hm
  have hp := h.legal.perm
  by_cases hr : dp.r = lastRound s.perm d
  · obtain ⟨hok, hagain⟩ := hat.last hp hr
    by_cases hin : packBlock s.perm (roundLanes s.hashPort s.perm d dp) < s.perm.n
    · refine .inr fun io => ?_
      rw [State.takeDigest, if_pos (by exact hr), State.endPass, if_pos (by exact hin)]
      exact h.answered_closeWalk (hok hin)
    · have hend (io : List PortIn) :
          (s.inWalk dp .hwait msg (sent ++ [roundMessage s.hashPort s.perm d dp]) io).takeDigest i d
              (Config.hash (roundMessage s.hashPort s.perm d dp)) =
            (s.inWalk dp .hwait msg (sent ++ [roundMessage s.hashPort s.perm d dp]) io).walkTurn i d (dp.k + 1)
              (packBlock s.perm (roundLanes s.hashPort s.perm d dp)) := (if_pos hr).trans (if_neg hin)
      simp only [hend]
      refine (h.walkTurn (hagain hin)).imp (fun ⟨hk, hat', hturn⟩ => ⟨_, hat', ?_, hturn _ _ _⟩) fun hans => hans _ _ _
      rw [roundsLeft_passStart hp hk, (succ_of_lt hat.k_lt).1]
      exact Nat.lt_add_of_pos_right (passRoundsLeft_pos hat.r_lt d)
  · exact .inl ⟨_, hat.next hp hr, Nat.add_lt_add_left (passRoundsLeft_nextRound hp hat.r_lt hr) _, fun io => if_neg hr⟩

theorem AsksWalk.atRound_start (h : AsksWalk s i d x0) : s.AtRound d x0 (passStart s.perm d 0 x0) [] :=
  have ⟨hb, _⟩ := State.walkRequest_cases h.request
  (atTurn_start hb).atRound h.legal.perm h.legal.cap_ne.symm

/-- The first edge starts the walk's first pass. -/
theorem AsksWalk.step_start (h : AsksWalk s i d x0) (hk : s.walking = false) (hr : (io.headD quietPins).rst = false) :
    step { s with io := io } = .next (s.inWalk (passStart s.perm d 0 x0) .hidle s.hashMsg [] io.tail) := by
  have hcap : (0 : Word) ≠ s.walkCap := h.legal.cap_ne.symm
  have hrequest : State.walkRequest { s with io := io } i = some (d, x0) := (State.walkRequest_congr rfl rfl i).trans h.request
  rw [step_of_start (s := { s with io := io }) h.unit h.phase hr hk h.command hrequest, State.walkTurn, if_neg (by exact hcap),
    State.inWalk, List.append_nil]
  rfl

end Edges

section Refinement

variable {s : State} {i : Instr} {d : Direction} {x0 : Word}

/-- The states of the walk `s` asks for: before each round its message is to be offered, then waits to be transferred, then for its digest. -/
inductive UnderWay (s : State) (d : Direction) (x0 : Word) : State → Prop where
  | offer {dp : Datapath} {msg : Message} {sent : List Message} {io : List PortIn} :
      s.AtRound d x0 dp sent → UnderWay s d x0 (s.inWalk dp .hidle msg sent io)
  | request {dp : Datapath} {msg : Message} {sent : List Message} {io : List PortIn} :
      s.AtRound d x0 dp sent → roundMessage s.hashPort s.perm d dp = msg → UnderWay s d x0 (s.inWalk dp .hreq msg sent io)
  | await {dp : Datapath} {msg : Message} {sent : List Message} {io : List PortIn} :
      s.AtRound d x0 dp sent → roundMessage s.hashPort s.perm d dp = msg →
      UnderWay s d x0 (s.inWalk dp .hwait msg (sent ++ [msg]) io)

theorem UnderWay.cmdPhase {t : State} (h : UnderWay s d x0 t) : t.cmdPhase = s.cmdPhase := by
  cases h <;> rfl

/-- An edge of the walk, the hash unit's contract kept, leads on or to the answer. -/
theorem UnderWay.step {t t' : State} (h : UnderWay s d x0 t) (ha : AsksWalk s i d x0) (hk : t.HashKept Config.hash)
    (hs : step t = .next t') : UnderWay s d x0 t' ∨ Answered s i t' := by
  obtain ⟨hr, hdigest⟩ := hk
  cases h with
  | offer hat =>
    cases hs.symm.trans (ha.step_hidle hr)
    exact .inl (.request hat rfl)
  | @request dp msg sent io hat hm =>
    cases hs.symm.trans (ha.step_hreq hr)
    split
    · exact .inl (.await hat hm)
    · exact .inl (.request hat hm)
  | @await dp msg sent io hat hm =>
    cases hs.symm.trans (ha.step_hwait hr)
    split
    next hv =>
      have hdata : (io.headD quietPins).hashRspData = Config.hash msg := hdigest rfl hv
      rw [hdata]
      obtain ⟨dp', hat', -, he⟩ | hans := ha.takeDigest hat hm msg
      · rw [he]
        exact .inl (.offer hat')
      · exact .inr (hans _)
    next => exact .inl (.await hat hm)

theorem Served.eq_of_resp {hash : Message → Word} {n : Nat} {t t' : State} (h : Served hash n t t') (hp : t.cmdPhase = .resp) :
    t' = t := by
  cases h with
  | here => rfl
  | edge hexec => cases hp.symm.trans hexec

theorem Answered.served {t t' : State} {n : Nat} (h : Answered s i t) (hs : Served Config.hash n t t') : Answered s i t' :=
  hs.eq_of_resp h.cmdPhase ▸ h

/-- A served walk can only end in the answer. -/
theorem UnderWay.served {t t' : State} {n : Nat} (ha : AsksWalk s i d x0) (hs : Served Config.hash n t t')
    (h : UnderWay s d x0 t) (hp : t'.cmdPhase = .resp) : Answered s i t' := by
  induction hs with
  | here t => cases hp.symm.trans (h.cmdPhase.trans ha.phase)
  | edge _ hk hstep hrest ih =>
    obtain hnext | hans := h.step ha hk hstep
    · exact ih hnext hp
    · exact hans.served hrest

/-- The edge that completes a command without a walk. -/
theorem answered_of_no_walk {t : State} (hp : s.cmdPhase = .exec) (hr : s.pinsNow.rst = false)
    (hd : decode s.ncur s.cmdData = .command i) (hw : s.walkRequest i = none) (hs : step s = .next t) : Answered s i t := by
  obtain ⟨v, hv, htick⟩ := exec_tick i s
  cases hs.symm.trans ((step_of_no_walk hp hr hd hw).trans htick)
  exact ⟨v, hv, rfl⟩

end Refinement

/-- Settles O57: the first edge answers a command without a walk or starts the walk, whose states are `UnderWay` until it is answered. -/
theorem portWalkRefinesExec : Obligations.PortWalkRefinesExec := by
  intro s t i n hlegal hu hp hk hd hserved hresp
  cases hserved with
  | here => cases hp.symm.trans hresp
  | edge _ hkept hstep hrest =>
    cases hw : s.walkRequest i with
    | none => exact (answered_of_no_walk hp hkept.1 hd hw hstep).served hrest
    | some q =>
      obtain ⟨d, x0⟩ := q
      have ha : AsksWalk s i d x0 := ⟨hlegal, hu, hp, hd, hw⟩
      cases hstep.symm.trans (ha.step_start hk hkept.1)
      exact (UnderWay.offer ha.atRound_start).served ha hrest hresp

section Prompt

variable {s : State} {i : Instr} {d : Direction} {x0 : Word}

/-- The three edges a prompt hash unit takes for the message `m`: the offer, the transfer, the digest. -/
def promptRound (m : Message) : List PortIn :=
  [quietPins, { quietPins with hashReqReady := true }, { quietPins with hashRspValid := true, hashRspData := Config.hash m }]

/-- A prompt hash unit takes a round in three edges, its contract kept. -/
theorem AsksWalk.served_promptRound (h : AsksWalk s i d x0) {dp : Datapath} {m msg : Message} {sent : List Message}
    {es : List PortIn} {n : Nat} {t : State} (hm : roundMessage s.hashPort s.perm d dp = m)
    (hrest : Served Config.hash n
      ((s.inWalk dp .hwait m (sent ++ [m]) es).takeDigest i d (Config.hash m)) t) :
    Served Config.hash (n + 3) (s.inWalk dp .hidle msg sent (promptRound m ++ es)) t := by
  subst hm
  exact .edge h.phase ⟨rfl, nofun⟩ (h.step_hidle rfl)
    (.edge h.phase ⟨rfl, nofun⟩ (h.step_hreq rfl)
      (.edge h.phase ⟨rfl, fun _ _ => rfl⟩ (h.step_hwait rfl) hrest))

/-- By induction on the rounds left: the samples of a prompt hash unit, three a round. -/
theorem AsksWalk.exists_served (h : AsksWalk s i d x0) (left : Nat) {dp : Datapath} {sent : List Message}
    (hat : s.AtRound d x0 dp sent) (hleft : roundsLeft s.perm s.walkCap d dp ≤ left) (msg : Message) :
    ∃ es n t, Served Config.hash n (s.inWalk dp .hidle msg sent es) t ∧ t.cmdPhase = .resp ∧ n ≤ 3 * left := by
  induction left generalizing dp sent msg with
  | zero =>
    have hpos : 0 < roundsLeft s.perm s.walkCap d dp := Nat.add_pos_right _ (passRoundsLeft_pos hat.r_lt d)
    omega
  | succ left ih =>
    obtain ⟨dp', hat', hlt, he⟩ | hans := h.takeDigest hat rfl (roundMessage s.hashPort s.perm d dp)
    · obtain ⟨es, n, t, hserved, hresp, hn⟩ := ih hat' (by omega) (roundMessage s.hashPort s.perm d dp)
      rw [← he] at hserved
      exact ⟨_, n + 3, t, h.served_promptRound rfl hserved, hresp, by omega⟩
    · exact ⟨_, 0 + 3, _, h.served_promptRound rfl (.here _), (hans []).cmdPhase, by omega⟩

end Prompt

/-- Settles O58: one quiet edge starts the walk or answers, then a prompt hash unit serves the walk's rounds, at most ROUNDS * WALK_CAP. -/
theorem promptHashUnitCompletesEveryCommand : Obligations.PromptHashUnitCompletesEveryCommand := by
  intro s i hlegal hu hp hk hd
  cases hw : s.walkRequest i with
  | none =>
    obtain ⟨t, ht, -⟩ := step_total { s with io := [] }
    have hw' := (State.walkRequest_congr (s := s) (t := { s with io := [] }) rfl rfl i).trans hw
    have hans : Answered { s with io := [] } i t := answered_of_no_walk hp rfl hd hw' ht
    exact ⟨[], 1, t, .edge hp ⟨rfl, fun _ => nofun⟩ ht (.here t), hans.cmdPhase, by omega⟩
  | some q =>
    obtain ⟨d, x0⟩ := q
    have ha : AsksWalk s i d x0 := ⟨hlegal, hu, hp, hd, hw⟩
    have hrounds : roundsLeft s.perm s.walkCap d (passStart s.perm d 0 x0) = s.perm.rounds.toNat * s.walkCap.toNat :=
      roundsLeft_passStart hlegal.perm ha.atRound_start.k_lt
    obtain ⟨es, n, t, hserved, hresp, hn⟩ := ha.exists_served _ ha.atRound_start hrounds.le s.hashMsg
    exact ⟨quietPins :: es, n + 1, t, .edge hp ⟨rfl, fun _ => nofun⟩ (ha.step_start hk rfl) hserved, hresp,
      by rw [Nat.mul_assoc]; omega⟩

end Sys2Proof.Machine

/-! SUPPORT. The Feistel Engine as folds over its round numbers (42_feistel_engine.md R86-R92), and the messages of one application read off
them: the obligations O26, O27, O28, O29 and O30. -/

namespace Sys2Proof.Machine

section Rounds

variable {u : HashPort} {p : Perm}

theorem roundsForward_eq_foldl (count : Nat) (l : Lanes) :
    roundsForward u p count l = (List.range count).foldl (fun l r => roundForward u p r l) l := by
  induction count with
  | zero => rfl
  | succ count ih => rw [roundsForward, ih, List.range_succ, List.foldl_concat]

theorem roundsBackward_eq_foldl (count : Nat) (l : Lanes) :
    roundsBackward u p count l = (List.range count).reverse.foldl (fun l r => roundBackward u p r l) l := by
  induction count generalizing l with
  | zero => rfl
  | succ count ih => rw [roundsBackward, ih, List.range_succ, List.reverse_concat, List.foldl_cons]

/-- The halves before round `r` of the backward rounds `count − 1 … 0`: what the rounds above `r` make of `l` (R88, R92). -/
def lanesBeforeBackward (u : HashPort) (p : Perm) (count r : Nat) (l : Lanes) : Lanes :=
  ((List.range count).drop (r + 1)).reverse.foldl (fun l q => roundBackward u p q l) l

/-- The first backward round has none before it. -/
theorem lanesBeforeBackward_first (r : Nat) (l : Lanes) : lanesBeforeBackward u p (r + 1) r l = l := by
  rw [lanesBeforeBackward, List.drop_eq_nil_of_le (List.length_range).le, List.reverse_nil, List.foldl_nil]

/-- The first backward round is before every other one. -/
theorem lanesBeforeBackward_succ {count r : Nat} (hr : r < count) (l : Lanes) :
    lanesBeforeBackward u p (count + 1) r l = lanesBeforeBackward u p count r (roundBackward u p count l) := by
  have hlen : r + 1 ≤ (List.range count).length := by rwa [List.length_range]
  rw [lanesBeforeBackward, List.range_succ, List.drop_append_of_le_length hlen, List.reverse_concat, List.foldl_cons,
    lanesBeforeBackward]

theorem messagesForward_eq_map (count : Nat) (l : Lanes) :
    messagesForward u p count l =
      (List.range count).map fun r => u.enc p.seed (BitVec.ofNat 8 r) (roundsForward u p r l).rh := by
  induction count with
  | zero => rfl
  | succ count ih => rw [messagesForward, ih, List.range_succ, List.map_append, List.map_singleton]

/-- By induction on the rounds left: the message of the first backward round carries `l` itself, the others start from that round's halves. -/
theorem messagesBackward_eq_map (count : Nat) (l : Lanes) :
    messagesBackward u p count l =
      (List.range count).reverse.map fun r => u.enc p.seed (BitVec.ofNat 8 r) (lanesBeforeBackward u p count r l).lh := by
  induction count generalizing l with
  | zero => rfl
  | succ count ih =>
    rw [messagesBackward, ih, List.range_succ, List.reverse_concat, List.map_cons, lanesBeforeBackward_first]
    refine congrArg _ (List.map_congr_left fun r hr => ?_)
    rw [lanesBeforeBackward_succ (List.mem_range.mp (List.mem_reverse.mp hr))]

end Rounds

/-- Settles O26: the halves of a block in naturals, and both ways of packing. -/
theorem blockHalvesAreQuotientAndRemainder : Obligations.BlockHalvesAreQuotientAndRemainder := by
  refine fun p hp => ⟨fun x hx => ?_, fun l hlh hrh => toNat_packBlock hp ⟨hlh, hrh⟩⟩
  obtain ⟨hl, hr⟩ := toNat_splitBlock hp x hx
  exact ⟨hl, hr, packBlock_splitBlock hp hx⟩

/-- Settles O27: each operation is the fold of its rounds, in the order of their numbers or against it. -/
theorem roundRelationsOfTheEngine : Obligations.RoundRelationsOfTheEngine := fun _u p _l _r x =>
  ⟨rfl, rfl, congrArg (packBlock p) (roundsForward_eq_foldl p.rounds.toNat (splitBlock p x)),
    congrArg (packBlock p) (roundsBackward_eq_foldl p.rounds.toNat (splitBlock p x))⟩

/-- Settles O28: the halves of a block fit the mask, every round keeps that, and halves that fit pack to a block. -/
theorem engineStaysInRange : Obligations.EngineStaysInRange := by
  intro u p x hp hx
  have hfit : LanesFit p (splitBlock p x) := splitBlock_fit hp x hx
  refine ⟨applyStep_lt u hp .forward hx, applyStep_lt u hp .inverse hx, fun r => ?_⟩
  obtain ⟨hfl, hfr⟩ := roundsForward_fit u hp r hfit
  obtain ⟨hbl, hbr⟩ := roundsBackward_fit u hp r hfit
  exact ⟨hfl, hfr, hbl, hbr⟩

/-- Settles O29: splitting what was packed gives the halves back, so the rounds of one direction meet those of the other and undo them. -/
theorem decryptInvertsEncrypt : Obligations.DecryptInvertsEncrypt := by
  intro u p x hp hx
  have hfit : LanesFit p (splitBlock p x) := splitBlock_fit hp x hx
  constructor
  · rw [decrypt, encrypt, splitBlock_packBlock hp (roundsForward_fit u hp _ hfit), roundsBackward_roundsForward,
      packBlock_splitBlock hp hx]
  · rw [encrypt, decrypt, splitBlock_packBlock hp (roundsBackward_fit u hp _ hfit), roundsForward_roundsBackward,
      packBlock_splitBlock hp hx]

/-- Settles O30: one message a round, in the order of the rounds, with the half its round function takes. -/
theorem roundMessagesInOrder : Obligations.RoundMessagesInOrder := fun _u p x =>
  ⟨messagesForward_eq_map p.rounds.toNat (splitBlock p x), messagesBackward_eq_map p.rounds.toNat (splitBlock p x)⟩

end Sys2Proof.Machine

/-! SUPPORT. The excursions of the walks (42_feistel_engine.md R91; 43_cycle_walker.md R95, R99-R101): a walk's step function permutes the blocks, so
no two blocks on the way of walks from below N are the same, and a way is retraced against its direction: the obligations O35, O36 and O37. -/

namespace Sys2Proof.Machine

section Excursions

variable {u : HashPort} {p : Perm} {cap : Word} {d : Direction} {x y : Word} {j m m' : Nat}

/-- The blocks of a Permutation (42_feistel_engine.md R86). -/
def blocks (p : Perm) : Set Word := {x | x.toNat < 2 ^ p.b.toNat}

/-- The direction in which a walk is undone (43_cycle_walker.md R99). -/
def Direction.reverse : Direction → Direction
  | .forward => .inverse
  | .inverse => .forward

theorem Perm.Legal.mem_blocks (hp : p.Legal) (hx : x < p.n) : x ∈ blocks p := by
  obtain ⟨-, -, -, hn⟩ := hp.bounds
  exact (BitVec.lt_def.mp hx).trans_le hn

/-- `2^B < 4N` (40_parameter_deriver.md R69), for N = 1 as well. -/
theorem Perm.Legal.two_pow_b_lt (hp : p.Legal) (hn : 1 ≤ p.n.toNat) : 2 ^ p.b.toNat < 4 * p.n.toNat := by
  obtain ⟨hb, -⟩ := hp.geometry_toNat
  rw [hb]
  obtain hone | htwo := hn.eq_or_lt
  · rw [(blockWidth_eq_zero_iff _).mpr hone.ge]
    omega
  · exact two_pow_blockWidth_lt htwo

theorem mapsTo_applyStep (u : HashPort) (hp : p.Legal) (d : Direction) :
    Set.MapsTo (applyStep u p d) (blocks p) (blocks p) := fun _ hx => applyStep_lt u hp d hx

theorem iterate_applyStep_mem (hp : p.Legal) (hx : x ∈ blocks p) (m : Nat) : (applyStep u p d)^[m] x ∈ blocks p :=
  (mapsTo_applyStep u hp d).iterate m hx

theorem leftInvOn_applyStep_reverse (u : HashPort) (hp : p.Legal) (d : Direction) :
    Set.LeftInvOn (applyStep u p d.reverse) (applyStep u p d) (blocks p) := by
  intro x hx
  obtain ⟨hforward, hinverse⟩ := decryptInvertsEncrypt u p x hp hx
  cases d with
  | forward => exact hforward
  | inverse => exact hinverse

theorem injOn_iterate_applyStep (u : HashPort) (hp : p.Legal) (d : Direction) (m : Nat) :
    Set.InjOn (applyStep u p d)^[m] (blocks p) :=
  (leftInvOn_applyStep_reverse u hp d).injOn.iterate (mapsTo_applyStep u hp d) m

/-- Walking back `m` steps from the end of a way leads to the block `m` steps before its end. -/
theorem iterate_reverse_iterate (hp : p.Legal) (hx : x ∈ blocks p) (hm : m ≤ j) :
    (applyStep u p d.reverse)^[m] ((applyStep u p d)^[j] x) = (applyStep u p d)^[j - m] x := by
  induction m with
  | zero => rfl
  | succ m ih =>
    have hlast : j - m = j - (m + 1) + 1 := by omega
    rw [Function.iterate_succ_apply', ih (by omega), hlast, Function.iterate_succ_apply']
    exact leftInvOn_applyStep_reverse u hp d (iterate_applyStep_mem hp hx _)

/-- A first return is the first return of the way back. -/
theorem FirstReturn.reverse (hp : p.Legal) (hx : x < p.n) (h : FirstReturn u p d x j) :
    FirstReturn u p d.reverse ((applyStep u p d)^[j] x) j := by
  obtain ⟨hj, -, hout⟩ := h
  have hblock := hp.mem_blocks hx
  refine ⟨hj, ?_, fun i hi hij => ?_⟩
  · rwa [iterate_reverse_iterate hp hblock le_rfl, Nat.sub_self]
  · rw [iterate_reverse_iterate hp hblock hij.le]
    exact hout (j - i) (by omega) (by omega)

theorem walk_of_trivial (hb : p.b = 0) : walk u p cap d x = { code := .ok, value := x, steps := 0, sent := [] } :=
  if_pos hb

theorem walk_reverse_walk (hp : p.Legal) (hx : x < p.n) (hok : (walk u p cap d x).code = .ok) :
    (walk u p cap d.reverse (walk u p cap d x).value).code = .ok ∧
      (walk u p cap d.reverse (walk u p cap d x).value).value = x ∧
      (walk u p cap d.reverse (walk u p cap d x).value).steps = (walk u p cap d x).steps := by
  obtain ⟨hb, hw⟩ | ⟨hb, j, hj, hret, -, hvalue, hsteps⟩ | ⟨-, -, hcode, -⟩ := walk_cases u p cap d x
  · rw [hw, walk_of_trivial hb]
    exact ⟨rfl, rfl, rfl⟩
  · rw [hvalue, hsteps]
    obtain ⟨hcode', hvalue', hsteps'⟩ := walk_of_firstReturn hb (hret.reverse hp hx) hj
    rw [iterate_reverse_iterate hp (hp.mem_blocks hx) le_rfl, Nat.sub_self] at hvalue'
    exact ⟨hcode', hvalue', hsteps'⟩
  · rw [hcode] at hok
    cases hok

/-- The first `m` blocks on the way from `x`, `x` itself left out, are not below N. -/
def Away (u : HashPort) (p : Perm) (d : Direction) (x : Word) (m : Nat) : Prop :=
  ∀ i, 1 ≤ i → i < m → p.n ≤ (applyStep u p d)^[i] x

/-- A walk leaves the loop at the first block below N, so all blocks between its ends are not. -/
theorem away_walk_steps (u : HashPort) (p : Perm) (cap : Word) (d : Direction) (x : Word) :
    Away u p d x (walk u p cap d x).steps := by
  obtain ⟨-, hw⟩ | ⟨-, j, -, ⟨-, -, hout⟩, -, -, hsteps⟩ | ⟨-, hout, -, -, hsteps⟩ := walk_cases u p cap d x
  · rw [hw]
    exact fun i _ hi => absurd hi (Nat.not_lt_zero i)
  · rwa [hsteps]
  · rw [hsteps]
    exact fun i hi hlt => hout i hi hlt.le

/-- The ways of two walks from below N do not meet: undone from the common block, the longer one would be below N on its way. -/
theorem Away.eq_of_iterate_eq (hp : p.Legal) (hx : x < p.n) (hy : y < p.n) (hax : Away u p d x m) (hay : Away u p d y m')
    {a b : Nat} (ha : a < m) (hb : b < m') (h : (applyStep u p d)^[a] x = (applyStep u p d)^[b] y) : x = y ∧ a = b := by
  wlog hab : a ≤ b generalizing x y m m' a b
  · obtain ⟨hyx, hba⟩ := this hy hx hay hax hb ha h.symm (by omega)
    exact ⟨hyx.symm, hba.symm⟩
  have hcut : x = (applyStep u p d)^[b - a] y := by
    refine injOn_iterate_applyStep u hp d a (hp.mem_blocks hx) (iterate_applyStep_mem hp (hp.mem_blocks hy) _) ?_
    rw [h, ← Function.iterate_add_apply, Nat.add_sub_cancel' hab]
  obtain rfl | hlt := hab.eq_or_lt
  · rw [Nat.sub_self] at hcut
    exact ⟨hcut, rfl⟩
  · have hout : p.n ≤ x := hcut ▸ hay (b - a) (by omega) (by omega)
    exact absurd hx (not_lt_of_word_le hout)

/-- The blocks on the way are different and not below N, of which there are `2^B − N` (43_cycle_walker.md R100). -/
theorem Away.le (hp : p.Legal) (hx : x < p.n) (h : Away u p d x m) : m ≤ 2 ^ p.b.toNat - p.n.toNat + 1 := by
  have hcard : (Finset.Ico 1 m).card ≤ (Finset.Ico p.n.toNat (2 ^ p.b.toNat)).card := by
    refine Finset.card_le_card_of_injOn (fun i => ((applyStep u p d)^[i] x).toNat) (fun i hi => ?_) fun a ha b hb hab => ?_
    · obtain ⟨hone, hlt⟩ := Finset.mem_Ico.mp hi
      exact Finset.mem_Ico.mpr ⟨BitVec.le_def.mp (h i hone hlt), iterate_applyStep_mem hp (hp.mem_blocks hx) i⟩
    · exact (h.eq_of_iterate_eq hp hx hx h (Finset.mem_Ico.mp ha).2 (Finset.mem_Ico.mp hb).2
        (BitVec.eq_of_toNat_eq hab)).2
  rw [Nat.card_Ico, Nat.card_Ico] at hcard
  omega

theorem walk_ok_of_enough_cap (hp : p.Legal) (hx : x < p.n) (hcap : 2 ^ p.b.toNat - p.n.toNat + 1 ≤ cap.toNat) :
    (walk u p cap d x).code = .ok := by
  obtain ⟨-, hw⟩ | ⟨-, j, -, -, hok, -⟩ | ⟨-, hout, -⟩ := walk_cases u p cap d x
  · rw [hw]
  · exact hok
  · have haway : Away u p d x (cap.toNat + 1) := fun i hi hlt => hout i hi (by omega)
    have := haway.le hp hx
    omega

theorem toNat_ofNat_of_lt_toNat {n : Word} {i : Nat} (hi : i < n.toNat) : (BitVec.ofNat 64 i).toNat = i := by
  rw [BitVec.toNat_ofNat, Nat.mod_eq_of_lt (hi.trans n.isLt)]

theorem ofNat_lt_of_lt_toNat {n : Word} {i : Nat} (hi : i < n.toNat) : BitVec.ofNat 64 i < n := by
  rwa [BitVec.lt_def, toNat_ofNat_of_lt_toNat hi]

/-- The places on the ways of all walks from below N: a start index, and a number of steps less than its walk takes. -/
def walkPlaces (u : HashPort) (p : Perm) (cap : Word) (d : Direction) : Finset (Σ _ : Nat, Nat) :=
  (Finset.range p.n.toNat).sigma fun i => Finset.range (walk u p cap d (BitVec.ofNat 64 i)).steps

/-- The block at a place of a walk's way. -/
def blockAt (u : HashPort) (p : Perm) (d : Direction) (q : Σ _ : Nat, Nat) : Word :=
  (applyStep u p d)^[q.2] (BitVec.ofNat 64 q.1)

theorem mem_walkPlaces {i m : Nat} :
    ⟨i, m⟩ ∈ walkPlaces u p cap d ↔ i < p.n.toNat ∧ m < (walk u p cap d (BitVec.ofNat 64 i)).steps := by
  simp [walkPlaces]

theorem card_walkPlaces (u : HashPort) (p : Perm) (cap : Word) (d : Direction) :
    (walkPlaces u p cap d).card =
      (Finset.range p.n.toNat).sum fun i => (walk u p cap d (BitVec.ofNat 64 i)).steps := by
  simp [walkPlaces]

theorem injOn_blockAt (u : HashPort) (hp : p.Legal) (cap : Word) (d : Direction) :
    Set.InjOn (blockAt u p d) (walkPlaces u p cap d) := by
  rintro ⟨i, m⟩ hq ⟨i', m'⟩ hq' heq
  obtain ⟨hi, hm⟩ := mem_walkPlaces.mp hq
  obtain ⟨hi', hm'⟩ := mem_walkPlaces.mp hq'
  obtain ⟨hword, rfl⟩ := (away_walk_steps u p cap d _).eq_of_iterate_eq hp (ofNat_lt_of_lt_toNat hi)
    (ofNat_lt_of_lt_toNat hi') (away_walk_steps u p cap d _) hm hm' heq
  have hindex := congrArg BitVec.toNat hword
  rw [toNat_ofNat_of_lt_toNat hi, toNat_ofNat_of_lt_toNat hi'] at hindex
  rw [hindex]

/-- The places of all walks from below N hold different blocks, of which there are `2^B` (43_cycle_walker.md R101). -/
theorem card_walkPlaces_le (u : HashPort) (hp : p.Legal) (cap : Word) (d : Direction) :
    (walkPlaces u p cap d).card ≤ 2 ^ p.b.toNat := by
  rw [← Finset.card_range (2 ^ p.b.toNat)]
  refine Finset.card_le_card_of_injOn (fun q => (blockAt u p d q).toNat) (fun ⟨i, m⟩ hq => ?_) fun q hq q' hq' heq =>
    injOn_blockAt u hp cap d hq hq' (BitVec.eq_of_toNat_eq heq)
  have hstart : BitVec.ofNat 64 i < p.n := ofNat_lt_of_lt_toNat (mem_walkPlaces.mp hq).1
  exact Finset.mem_range.mpr (iterate_applyStep_mem hp (hp.mem_blocks hstart) m)

end Excursions

/-- Settles O35: a walk that answers OK answers its first return, which is the first return of the way back. -/
theorem inverseWalkRetracesTheWalk : Obligations.InverseWalkRetracesTheWalk := fun _u _p _cap _i hp hi =>
  ⟨walk_reverse_walk (d := .forward) hp hi, walk_reverse_walk (d := .inverse) hp hi⟩

/-- Settles O36: a walk's way has at most `2^B − N + 1` blocks, which for `N ≤ 170` is at most 510 by `2^B < 4N`. -/
theorem enoughCapExcludesTheViolation : Obligations.EnoughCapExcludesTheViolation := by
  intro u p cap d x hp hx
  have hn : 1 ≤ p.n.toNat := Nat.one_le_of_lt (BitVec.lt_def.mp hx)
  have hspace := hp.two_pow_b_lt hn
  exact ⟨walk_ok_of_enough_cap hp hx, fun _ => (away_walk_steps u p cap d x).le hp hx,
    fun hsmall hcap => walk_ok_of_enough_cap hp hx (by omega)⟩

/-- Settles O37: the walks' ways share no block, and there are fewer than `4N` blocks. -/
theorem walkStepsAddUpToTheBlockSpace : Obligations.WalkStepsAddUpToTheBlockSpace := fun u p cap d hp hn =>
  ⟨(card_walkPlaces u p cap d).ge.trans (card_walkPlaces_le u hp cap d), hp.two_pow_b_lt hn⟩

end Sys2Proof.Machine

/-! SUPPORT. How a walk ends: on a trivial Permutation at once (43_cycle_walker.md R95), the obligation O33; on the hash port's pins with a
value below N or at the cap, whatever the digests (93_implementation_defined.md I3), the obligation O56. -/

namespace Sys2Proof.Machine

section Ends

variable {s : State} {d : Direction} {x : Word}

/-- A walk without a step that answers OK writes WALK_COUNT alone. -/
theorem State.recordWalk_of_no_step (x : Word) (s : State) :
    s.recordWalk { code := .ok, value := x, steps := 0, sent := [] } = { s with walkCount := 0 } := by
  simp [State.recordWalk]

theorem queryWith_of_lt (u : HashPort) (hx : x < s.perm.n) :
    queryWith u d x s = .next (s.closeQuery (walk u s.perm s.walkCap d x)) :=
  if_neg fun h => not_lt_of_word_le h hx

theorem nextWith_of_lt (u : HashPort) {c : Byte} {cur : Cursor} (hc : s.cursor? c = some cur) (h : cur.pos < cur.stop) :
    nextWith u c s = .next (s.closeNext c cur (walk u s.perm s.walkCap .forward cur.pos)) := by
  rw [nextWith, hc]
  exact if_neg fun hle => not_lt_of_word_le hle h

theorem queryWith_of_trivial (u : HashPort) (d : Direction) (hb : s.perm.b = 0) (hx : x < s.perm.n) :
    queryWith u d x s = .next (State.respond .ok x { s with walkCount := 0 }) := by
  rw [queryWith_of_lt u hx, walk_of_trivial hb, State.closeQuery, State.recordWalk_of_no_step]

theorem nextWith_of_trivial (u : HashPort) {c : Byte} {cur : Cursor} (hb : s.perm.b = 0) (hc : s.cursor? c = some cur)
    (h : cur.pos < cur.stop) : nextWith u c s = .next
      (State.respond .ok cur.pos (State.setCursor c { cur with pos := cur.pos + 1 } { s with walkCount := 0 })) := by
  rw [nextWith_of_lt u hc h, walk_of_trivial hb, State.closeNext, State.recordWalk_of_no_step]
  rfl

/-- An edge that completes a walk under way ends a pass: with a value below N, or out of the domain with the cap reached. -/
theorem State.walkEdge_eq_closeWalk_of_resp {en : Enc} {i : Instr} {e : PortIn} (hp : s.cmdPhase = .exec)
    (h : (s.walkEdge en i d e).cmdPhase = .resp) :
    ∃ w : WalkResult, s.walkEdge en i d e = s.closeWalk i w ∧ BitVec.ofNat 64 w.steps = s.dp.k + 1 ∧
      (w.code = .ok ∧ w.value < s.perm.n ∨
        w.code = .internalInvariantViolation ∧ w.value = 0 ∧ s.dp.k + 1 = s.walkCap) := by
  have hsteps : BitVec.ofNat 64 (s.dp.k + 1).toNat = s.dp.k + 1 := by rw [BitVec.ofNat_toNat, BitVec.setWidth_eq]
  have hne : s.cmdPhase ≠ .resp := by rw [hp]; decide
  rcases State.walkEdge_cases en i d e s with ⟨_, _, _, heq⟩ | ⟨-, -, heq⟩ <;> rw [heq] at h ⊢
  · exact absurd h hne
  · rcases State.takeDigest_cases i d e.hashRspData s with ⟨-, heq⟩ | ⟨-, hlt, heq⟩ | ⟨-, -, heq⟩ <;> rw [heq] at h ⊢
    · exact absurd h hne
    · exact ⟨_, rfl, hsteps, .inl ⟨rfl, hlt⟩⟩
    · rcases State.walkTurn_cases i d (s.dp.k + 1)
        (packBlock s.perm (mixRound (reduceDigest s.perm e.hashRspData) s.dp.lanes d)) s with ⟨hk, heq⟩ | ⟨-, heq⟩ <;>
        rw [heq] at h ⊢
      · exact ⟨_, rfl, hsteps, .inr ⟨rfl, rfl, hk⟩⟩
      · exact absurd h hne

end Ends

/-- Settles O56: the walk's end counts one step more than the datapath's, which the cap allows; the rest is what a walk's end writes. -/
theorem anyDigestsGiveALawfulAnswer : Obligations.AnyDigestsGiveALawfulAnswer := by
  intro s t hs hu hk hr hstep hresp
  obtain ⟨hphase, ⟨i, d, x0, hd, hw⟩, hlt, -⟩ := hs.walk hk
  obtain ⟨hsucc, hle⟩ := succ_of_lt hlt
  rw [WalkOnPins.step ⟨hu, hphase, hk, hd, hw⟩ hr] at hstep
  cases hstep
  obtain ⟨w, heq, hsteps, hend⟩ := State.walkEdge_eq_closeWalk_of_resp (s := s.tick) hphase hresp
  obtain ⟨hperm, -, -, -, hanswer, hcount, hstatus, -, -, -, hcursors⟩ := State.closeWalk_keeps i w s.tick
  have hcount' : (s.tick.closeWalk i w).walkCount = s.dp.k + 1 := hcount.trans hsteps
  rw [heq, hanswer, hcount', hstatus]
  refine ⟨hperm, ?_⟩
  obtain ⟨hok, hvalue⟩ | ⟨hcode, hvalue, hcap⟩ := hend
  · exact .inl ⟨hok, hvalue, by omega, hle, if_neg (by rw [hok]; decide)⟩
  · exact .inr ⟨by rw [hcode, hvalue], hcap, if_pos hcode, hcursors (by rw [hcode]; decide)⟩

/-- Settles O33: on a trivial Permutation the walk of either direction answers its start value without a step. -/
theorem trivialWalkIsTheIdentity : Obligations.TrivialWalkIsTheIdentity := by
  intro s x hb
  refine ⟨fun hx => ?_, fun c stop hc hlt => nextWith_of_trivial s.hashPort hb hc hlt⟩
  have hget := queryWith_of_trivial s.hashPort .forward hb hx
  have hinvert := queryWith_of_trivial s.hashPort .inverse hb hx
  exact ⟨hget, hinvert.trans hget.symm⟩

end Sys2Proof.Machine

/-! SUPPORT. GET and INVERT whose walk returns to the domain (44_query_commands.md R103-R105): what such a walk answers and what its command
writes, and that walks from below N which all return permute the indices: the obligations O31, O32 and O38. -/

namespace Sys2Proof.Machine

section Queries

variable {u : HashPort} {p : Perm} {cap : Word} {d : Direction} {s : State} {x v : Word} {j : Nat}

/-- A walk that first returns within the cap, its messages included (43_cycle_walker.md R94, R97). -/
theorem walk_eq_of_firstReturn (hb : p.b ≠ 0) (h : FirstReturn u p d x j) (hj : j ≤ cap.toNat) :
    walk u p cap d x =
      { code := .ok, value := (applyStep u p d)^[j] x, steps := j,
        sent := (List.range j).flatMap fun m => stepMessages u p d ((applyStep u p d)^[m] x) } := by
  obtain ⟨hcode, hvalue, hsteps⟩ := walk_of_firstReturn hb h hj
  have hsent := walk_sent u p cap d x
  rw [hsteps] at hsent
  rw [WalkResult.mk.injEq]
  exact ⟨hcode, hvalue, hsteps, hsent⟩

/-- A query whose walk first returns within the cap writes WALK_COUNT and responds (R103, R104). -/
theorem queryWith_of_firstReturn (hb : s.perm.b ≠ 0) (hx : x < s.perm.n) (h : FirstReturn u s.perm d x j)
    (hj : j ≤ s.walkCap.toNat) :
    queryWith u d x s = .next (State.respond .ok ((applyStep u s.perm d)^[j] x) { s with
      walkCount := BitVec.ofNat 64 j
      hashSent := s.hashSent ++
        (List.range j).flatMap fun m => stepMessages u s.perm d ((applyStep u s.perm d)^[m] x) }) := by
  rw [queryWith_of_lt u hx, walk_eq_of_firstReturn hb h hj]
  rfl

/-- A command that ends a query's walk answers what the walk answers. -/
theorem responseTo_eq_ok_iff {i : Instr} {w : WalkResult} (h : exec i s = .next (s.closeQuery w)) :
    responseTo i s = some { code := .ok, value := v } ↔ w.code = .ok ∧ w.value = v := by
  rw [responseTo_of_exec h]
  simp [State.closeQuery]

theorem responseTo_get_eq_ok_iff (hx : x < s.perm.n) :
    responseTo (.get x) s = some { code := .ok, value := v } ↔
      (walk s.hashPort s.perm s.walkCap .forward x).code = .ok ∧
        (walk s.hashPort s.perm s.walkCap .forward x).value = v :=
  responseTo_eq_ok_iff (queryWith_of_lt s.hashPort hx)

theorem responseTo_invert_eq_ok_iff (hx : x < s.perm.n) :
    responseTo (.invert x) s = some { code := .ok, value := v } ↔
      (walk s.hashPort s.perm s.walkCap .inverse x).code = .ok ∧
        (walk s.hashPort s.perm s.walkCap .inverse x).value = v :=
  responseTo_eq_ok_iff (queryWith_of_lt s.hashPort hx)

/-- Walks from below N that all answer OK permute the indices: each is undone by the walk back, and there are finitely many. -/
theorem bijOn_walk_value (hp : p.Legal) (hok : ∀ i, i < p.n → (walk u p cap d i).code = .ok) :
    Set.BijOn (fun i => (walk u p cap d i).value) {i | i < p.n} {i | i < p.n} := by
  have hmaps : Set.MapsTo (fun i => (walk u p cap d i).value) {i | i < p.n} {i | i < p.n} :=
    fun i hi => walk_value_lt hi (hok i hi)
  have hback : Set.LeftInvOn (fun v => (walk u p cap d.reverse v).value) (fun i => (walk u p cap d i).value)
      {i | i < p.n} := fun i hi => (walk_reverse_walk hp hi (hok i hi)).2.1
  exact ((Set.toFinite _).injOn_iff_bijOn_of_mapsTo hmaps).mp hback.injOn

end Queries

/-- Settles O31: the walk forward ends at its first return, and a query's end writes what its walk answers. -/
theorem getAnswersTheFirstReturn : Obligations.GetAnswersTheFirstReturn :=
  fun _s _i _j hb hi hone hcap hin hout =>
    queryWith_of_firstReturn (d := .forward) hb hi ⟨hone, hin, hout⟩ hcap

/-- Settles O32: as O31, for the inverse walk, whose step is decrypt. -/
theorem invertAnswersTheFirstReturn : Obligations.InvertAnswersTheFirstReturn :=
  fun _s _i _j hb hi hone hcap hin hout =>
    queryWith_of_firstReturn (d := .inverse) hb hi ⟨hone, hin, hout⟩ hcap

/-- Settles O38: the forward walks permute the indices, and the inverse walk retraces each of them. -/
theorem getIsABijectionInvertedByInvert : Obligations.GetIsABijectionInvertedByInvert := by
  intro s hp hget
  have hok : ∀ i, i < s.perm.n → (walk s.hashPort s.perm s.walkCap .forward i).code = .ok := by
    intro i hi
    obtain ⟨v, hv⟩ := hget i hi
    exact ((responseTo_get_eq_ok_iff hi).mp hv).1
  obtain ⟨hmaps, hinj, hsurj⟩ := bijOn_walk_value hp hok
  refine ⟨fun i v hi hv => ?_, fun v hv => ?_⟩
  · obtain ⟨hcode, rfl⟩ := (responseTo_get_eq_ok_iff hi).mp hv
    obtain ⟨hcode', hvalue', -⟩ := walk_reverse_walk hp hi hcode
    have hlt := hmaps hi
    exact ⟨hlt, (responseTo_invert_eq_ok_iff hlt).mpr ⟨hcode', hvalue'⟩⟩
  · obtain ⟨i, hi, hvalue⟩ := hsurj hv
    refine ⟨i, hi, (responseTo_get_eq_ok_iff hi).mpr ⟨hok i hi, hvalue⟩, fun i' hi' hv' => ?_⟩
    obtain ⟨-, hvalue'⟩ := (responseTo_get_eq_ok_iff hi').mp hv'
    exact hinj hi' hi (hvalue'.trans hvalue.symm)

end Sys2Proof.Machine

/-! SUPPORT. ITER, RANGE and NEXT (45_iteration_commands.md R106-R110): what opening a cursor writes, what a NEXT whose walk returns writes, and
what a sequence of NEXTs on one cursor answers: the obligations O39, O40, O42, O46 and O47. -/

namespace Sys2Proof.Machine

section Iteration

variable {s : State} {c : Byte} {cur : Cursor} {x : Word} {count : Nat}

/-- A NEXT whose walk first returns within the cap advances its cursor and responds (R108). -/
theorem nextWith_of_firstReturn (u : HashPort) {j : Nat} (hc : s.cursor? c = some cur) (hlt : cur.pos < cur.stop)
    (hb : s.perm.b ≠ 0) (h : FirstReturn u s.perm .forward cur.pos j) (hj : j ≤ s.walkCap.toNat) :
    nextWith u c s = .next (State.respond .ok ((applyStep u s.perm .forward)^[j] cur.pos) (State.setCursor c
      { cur with pos := cur.pos + 1 } { s with
        walkCount := BitVec.ofNat 64 j
        hashSent := s.hashSent ++ (List.range j).flatMap fun m =>
          stepMessages u s.perm .forward ((applyStep u s.perm .forward)^[m] cur.pos) })) := by
  rw [nextWith_of_lt u hc hlt, walk_eq_of_firstReturn hb h hj]
  rfl

/-- The walk of a GET of `x`, and of a NEXT at position `x`. -/
def State.walkFrom (s : State) (x : Word) : WalkResult := walk s.hashPort s.perm s.walkCap .forward x

theorem exec_next_of_lt (hc : s.cursor? c = some cur) (hlt : cur.pos < cur.stop) :
    exec (.next c) s = .next (s.closeNext c cur (s.walkFrom cur.pos)) :=
  nextWith_of_lt s.hashPort hc hlt

theorem walkFrom_code_of_get_ok (hx : x < s.perm.n)
    (h : ∃ v, responseTo (.get x) s = some { code := .ok, value := v }) : (s.walkFrom x).code = .ok := by
  obtain ⟨v, hv⟩ := h
  exact ((responseTo_get_eq_ok_iff hx).mp hv).1

theorem responseTo_get_of_walkFrom_ok (hx : x < s.perm.n) (h : (s.walkFrom x).code = .ok) :
    responseTo (.get x) s = some { code := .ok, value := (s.walkFrom x).value } :=
  (responseTo_get_eq_ok_iff hx).mpr ⟨h, rfl⟩

theorem pulls_succ_of_exec {t : State} (h : exec (.next c) s = .next t) :
    pulls c (count + 1) s = t.response :: pulls c count t.release := by
  rw [pulls, h]

theorem State.closeNext_response (c : Byte) (cur : Cursor) (w : WalkResult) (s : State) :
    (s.closeNext c cur w).response = { code := w.code, value := w.value } := rfl

/-- A NEXT whose walk answers OK leaves its cursor one place on, its response taken or not. -/
theorem State.cursor?_release_closeNext {w : WalkResult} (hc : s.cursor? c = some cur) (hw : w.code = .ok) :
    (s.closeNext c cur w).release.cursor? c = some { cur with pos := cur.pos + 1 } :=
  (State.cursor?_setCursor_self (s := s.recordWalk w) (State.lt_of_cursor? hc)).trans (congrArg some (if_pos hw))

/-- A NEXT writes nothing a walk takes. -/
@[simp] theorem State.walkFrom_release_closeNext (c : Byte) (cur : Cursor) (w : WalkResult) (s : State) (x : Word) :
    (s.closeNext c cur w).release.walkFrom x = s.walkFrom x := rfl

/-- ITER and RANGE write nothing a walk takes. -/
@[simp] theorem State.walkFrom_release_openCursor (c : Byte) (lo hi : Word) (s : State) (x : Word) :
    (s.openCursor c lo hi).release.walkFrom x = s.walkFrom x := rfl

/-- A word `k` places on, where the places up to a word above it do not wrap. -/
theorem toNat_add_ofNat_of_le {pos stop : Word} {k : Nat} (h : pos.toNat + k ≤ stop.toNat) :
    (pos + BitVec.ofNat 64 k).toNat = pos.toNat + k := by
  have := stop.isLt
  rw [BitVec.toNat_add, BitVec.toNat_ofNat, Nat.add_mod_mod, Nat.mod_eq_of_lt (by omega)]

theorem add_ofNat_succ (pos : Word) (k : Nat) : pos + BitVec.ofNat 64 (k + 1) = pos + 1 + BitVec.ofNat 64 k := by
  rw [Nat.add_comm k 1, BitVec.ofNat_add, ← BitVec.add_assoc]
  rfl

/-- `count` NEXTs whose walks answer OK pull the walks' values in order, and leave the cursor `count` places on (R109). -/
theorem exists_pulls_eq_append {pos stop : Word} (hc : s.cursor? c = some { pos := pos, stop := stop })
    (hle : pos.toNat + count ≤ stop.toNat) (hok : ∀ j < count, (s.walkFrom (pos + BitVec.ofNat 64 j)).code = .ok) :
    ∃ t : State, t.cursor? c = some { pos := pos + BitVec.ofNat 64 count, stop := stop } ∧ ∀ more,
      pulls c (count + more) s = (List.range count).map (fun j =>
        { code := .ok, value := (s.walkFrom (pos + BitVec.ofNat 64 j)).value }) ++ pulls c more t := by
  induction count generalizing s pos with
  | zero => exact ⟨s, by simpa using hc, fun more => by simp⟩
  | succ count ih =>
    have hlt : pos < stop := by rw [BitVec.lt_def]; omega
    have hfirst : (s.walkFrom pos).code = .ok := by simpa using hok 0 count.succ_pos
    obtain ⟨hpos, -⟩ := succ_of_lt hlt
    obtain ⟨t, ht, hpulls⟩ := ih (pos := pos + 1) (State.cursor?_release_closeNext hc hfirst) (by omega) fun j hj => by
      rw [State.walkFrom_release_closeNext, ← add_ofNat_succ]
      exact hok (j + 1) (by omega)
    refine ⟨t, by rw [ht, add_ofNat_succ], fun more => ?_⟩
    rw [Nat.add_right_comm, pulls_succ_of_exec (exec_next_of_lt hc hlt), hpulls, List.range_succ_eq_map]
    simp only [List.map_cons, List.map_map, Function.comp_def, Nat.succ_eq_add_one, add_ofNat_succ,
      State.walkFrom_release_closeNext, List.cons_append, BitVec.add_zero, State.closeNext_response, hfirst]

end Iteration

/-- Settles O39: opening the slot writes its cursor and responds. -/
theorem iterOpensTheWholeDomain : Obligations.IterOpensTheWholeDomain := fun _c _s hc => exec_iter_of_lt hc

/-- Settles O40: as O39, once the interval has passed its check. -/
theorem rangeOpensTheInterval : Obligations.RangeOpensTheInterval := fun _c _lo _hi _s => exec_range_of_le

/-- Settles O42: the walk forward ends at its first return, and a NEXT's end writes what its walk answers. -/
theorem nextPullsAndAdvances : Obligations.NextPullsAndAdvances :=
  fun s _c _pos _stop _j hc hlt hb hone hcap hin hout =>
    nextWith_of_firstReturn s.hashPort hc hlt hb ⟨hone, hin, hout⟩ hcap

/-- Settles O46: a legal cursor ends at N or before, so each NEXT's walk is the walk of the GET of its position. -/
theorem nextsYieldTheGetsInOrder : Obligations.NextsYieldTheGetsInOrder := by
  intro s c pos stop count hs hc hle hget
  have hstop : stop ≤ s.perm.n := (hs.cursors _ (State.mem_of_cursor? hc)).2
  have hlt : ∀ j < count, pos + BitVec.ofNat 64 j < s.perm.n := by
    intro j hj
    rw [BitVec.le_def] at hstop
    rw [BitVec.lt_def, toNat_add_ofNat_of_le (stop := stop) (by omega)]
    omega
  have hok : ∀ j < count, (s.walkFrom (pos + BitVec.ofNat 64 j)).code = .ok :=
    fun j hj => walkFrom_code_of_get_ok (hlt j hj) (hget j hj)
  obtain ⟨t, -, hpulls⟩ := exists_pulls_eq_append hc hle hok
  have hall := hpulls 0
  rw [Nat.add_zero, pulls, List.append_nil] at hall
  rw [hall, List.map_map]
  refine List.map_congr_left fun j hj => ?_
  have hj := List.mem_range.mp hj
  exact (responseTo_get_of_walkFrom_ok (hlt j hj) (hok j hj)).symm

/-- Settles O47: the cursor runs through all positions below N and then stands at its end; the walks from them permute the indices. -/
theorem iterationYieldsEveryElementOnce : Obligations.IterationYieldsEveryElementOnce := by
  intro s c hs hslot hget
  have hok : ∀ i, i < s.perm.n → (s.walkFrom i).code = .ok := fun i hi => walkFrom_code_of_get_ok hi (hget i hi)
  obtain ⟨hmaps, hinj, -⟩ := bijOn_walk_value hs.perm hok
  have hcur : (s.openCursor c 0 s.perm.n).release.cursor? c = some { pos := 0, stop := s.perm.n } :=
    State.cursor?_setCursor_self hslot
  obtain ⟨t, ht, hpulls⟩ := exists_pulls_eq_append (count := s.perm.n.toNat) hcur (by simp) fun j hj => by
    rw [zero_add]
    exact hok _ (ofNat_lt_of_lt_toNat hj)
  have hend : pulls c 1 t = [{ code := .endOfSequence, value := 0 }] :=
    pulls_succ_of_exec (exec_next_of_exhausted ht (by simp))
  refine ⟨_, (List.range s.perm.n.toNat).map fun j => (s.walkFrom (BitVec.ofNat 64 j)).value,
    exec_iter_of_lt hslot, ?_, by simp, ?_, ?_⟩
  · rw [hpulls, hend, List.map_map]
    simp only [Function.comp_def, zero_add, State.walkFrom_release_openCursor]
  · refine List.Nodup.map_on (fun i hi j hj heq => ?_) List.nodup_range
    have hi := List.mem_range.mp hi
    have hj := List.mem_range.mp hj
    have hsame := hinj (ofNat_lt_of_lt_toNat hi) (ofNat_lt_of_lt_toNat hj) heq
    rw [← toNat_ofNat_of_lt_toNat hi, hsame, toNat_ofNat_of_lt_toNat hj]
  · intro v hv
    obtain ⟨j, hj, rfl⟩ := List.mem_map.mp hv
    exact hmaps (ofNat_lt_of_lt_toNat (List.mem_range.mp hj))

end Sys2Proof.Machine

/-! SUPPORT. READ_STATE (46_state_access.md R111, R112): a mapped register has a value and the value is the response; STATUS reads as its
flag alone (10_state.md R29): the obligation O48. -/

namespace Sys2Proof.Machine

section StateAccess

variable {s : State} {reg : StateReg} {v : Word}

theorem State.statusRead_eq_ite_iiv (s : State) : s.statusRead = if s.iiv then 1 else 0 := by
  have hbit : s.statusRead = (BitVec.ofBool s.iiv).setWidth 64 := BitVec.and_one_eq_setWidth_ofBool_getLsbD
  rw [hbit]
  cases s.iiv <;> rfl

theorem State.exists_readReg_of_wf (h : reg.wf s.ncur = true) : ∃ v, s.readReg reg = some v :=
  Option.ne_none_iff_exists'.mp fun hnone => Bool.false_ne_true ((State.not_wf_of_readReg_eq_none hnone).symm.trans h)

theorem exec_readState_of_readReg (h : s.readReg reg = some v) : exec (.readState reg) s = .next (s.respond .ok v) := by
  simp only [exec, execReadState, h]

end StateAccess

/-- Settles O48: a mapped register has a value, and responding with it writes no register. -/
theorem readStateReturnsEachRegister : Obligations.ReadStateReturnsEachRegister := by
  intro s reg hwf
  obtain ⟨v, hv⟩ := State.exists_readReg_of_wf hwf
  refine ⟨v, exec_readState_of_readReg hv, ?_⟩
  cases reg with
  | n | seed | walkCount | walkCap | ncur => exact (Option.some.inj hv).symm
  | rounds | b | h | halfMask =>
    rw [← Option.some.inj hv]
    exact BitVec.toNat_setWidth_of_le (by decide)
  | status => exact (Option.some.inj hv).symm.trans s.statusRead_eq_ite_iiv
  | nMax =>
    rw [← Option.some.inj hv]
    rfl
  | curPos c | curEnd c =>
    obtain ⟨cur, hcur, hreg⟩ := Option.map_eq_some_iff.mp hv
    exact ⟨cur, hcur, hreg.symm⟩

end Sys2Proof.Machine

/-! SUPPORT. The error responses (60_exceptions.md R114-R116, R118, R119): the step of a record that selects no command, the errors found
before anything is written, and what a walk that reached the cap writes: the obligations O7, O34, O41, O43 and O44. -/

namespace Sys2Proof.Machine

section Exceptions

variable {u : HashPort} {p : Perm} {cap x : Word} {d : Direction} {s : State} {c : Byte} {cur : Cursor}

/-- The step of a latched record that selects no command: both hash units decode before all else (R114). -/
theorem step_of_illegal {why : DecodeError} (hp : s.cmdPhase = .exec) (hr : s.pinsNow.rst = false)
    (hd : decode s.ncur s.cmdData = .illegal why) : step s = .next (s.tick.raise .illegalCommand) := by
  have hd' : decode s.tick.ncur s.tick.cmdData = .illegal why := hd
  rw [step_of_exec hp hr, State.executeEdge]
  cases s.tick.hashUnit with
  | contract => simp only [State.executeLatched, hd']
  | pins => simp only [State.execEdge, hd']

/-- What a walk returns that performed `cap` steps and sent `sent` on them (43_cycle_walker.md R94, R96). -/
def WalkResult.capped (cap : Word) (sent : List Message) : WalkResult :=
  { code := .internalInvariantViolation, value := 0, steps := cap.toNat, sent := sent }

/-- A walk that stays outside the domain sends ROUNDS messages in each of its WALK_CAP steps (43_cycle_walker.md R96, R97). -/
theorem exists_walk_eq_capped (hb : p.b ≠ 0) (h : ∀ m, 1 ≤ m → m ≤ cap.toNat → p.n ≤ (applyStep u p d)^[m] x) :
    ∃ sent : List Message, sent.length = p.rounds.toNat * cap.toNat ∧ walk u p cap d x = .capped cap sent := by
  obtain ⟨hcode, hvalue, hsteps⟩ := walk_of_capped hb h
  have hlength := length_walk_sent u p cap d x
  rw [hsteps] at hlength
  refine ⟨_, hlength, ?_⟩
  rw [WalkResult.capped, WalkResult.mk.injEq]
  exact ⟨hcode, hvalue, hsteps, rfl⟩

/-- The violation's effects, and nothing else (R118): IIV, WALK_COUNT and the response; with the messages sent before the cap. -/
def State.violate (sent : List Message) (s : State) : State :=
  State.respond .internalInvariantViolation 0 { s with
    walkCount := s.walkCap
    status := s.status ||| 1
    hashSent := s.hashSent ++ sent }

theorem State.closeQuery_capped (sent : List Message) (s : State) :
    s.closeQuery (.capped s.walkCap sent) = s.violate sent := by
  simp [State.closeQuery, State.recordWalk, WalkResult.capped, State.violate]

/-- Writing to a slot what it holds. -/
theorem State.setCursor_of_cursor? (hc : s.cursor? c = some cur) : s.setCursor c cur = s := by
  obtain ⟨hlt, rfl⟩ := List.getElem?_eq_some_iff.mp hc
  rw [State.setCursor, List.set_getElem_self]

/-- A NEXT whose walk reached the cap writes its cursor back as it was (45_iteration_commands.md R108). -/
theorem State.closeNext_capped (hc : s.cursor? c = some cur) (sent : List Message) :
    s.closeNext c cur (.capped s.walkCap sent) = s.violate sent := by
  have hsame : (s.recordWalk (.capped s.walkCap sent)).setCursor c cur = s.recordWalk (.capped s.walkCap sent) :=
    State.setCursor_of_cursor? hc
  have hstay : advanceCursor (.capped s.walkCap sent) cur = cur := by simp [advanceCursor, WalkResult.capped]
  rw [State.closeNext, hstay, hsame, ← State.closeQuery_capped, State.closeQuery]

theorem queryWith_of_capped (hb : s.perm.b ≠ 0) (hx : x < s.perm.n)
    (h : ∀ m, 1 ≤ m → m ≤ s.walkCap.toNat → s.perm.n ≤ (applyStep u s.perm d)^[m] x) :
    ∃ sent : List Message, sent.length = s.perm.rounds.toNat * s.walkCap.toNat ∧
      queryWith u d x s = .next (s.violate sent) := by
  obtain ⟨sent, hlength, hwalk⟩ := exists_walk_eq_capped hb h
  exact ⟨sent, hlength, by rw [queryWith_of_lt u hx, hwalk, State.closeQuery_capped]⟩

theorem nextWith_of_capped (hb : s.perm.b ≠ 0) (hc : s.cursor? c = some cur) (hlt : cur.pos < cur.stop)
    (h : ∀ m, 1 ≤ m → m ≤ s.walkCap.toNat → s.perm.n ≤ (applyStep u s.perm .forward)^[m] cur.pos) :
    ∃ sent : List Message, sent.length = s.perm.rounds.toNat * s.walkCap.toNat ∧
      nextWith u c s = .next (s.violate sent) := by
  obtain ⟨sent, hlength, hwalk⟩ := exists_walk_eq_capped hb h
  exact ⟨sent, hlength, by rw [nextWith_of_lt u hc hlt, hwalk, State.closeNext_capped hc]⟩

end Exceptions

/-- Settles O7: the listed records are those the decoder rejects, and raising the error writes these fields alone. -/
theorem illegalCommandChangesNothing : Obligations.IllegalCommandChangesNothing := by
  intro s hp hr hlisted
  obtain ⟨why, hd⟩ := (illegalRecordsAreExactlyTheListed s.ncur s.cmdData).mpr hlisted
  exact step_of_illegal hp hr hd

/-- Settles O44: the walk is capped, and its end writes the violation's effects, a NEXT's cursor as it was. -/
theorem cappedWalksReportTheViolation : Obligations.CappedWalksReportTheViolation :=
  fun _s _x hb =>
    ⟨fun hx hout => queryWith_of_capped (d := .forward) hb hx hout,
      fun hx hout => queryWith_of_capped (d := .inverse) hb hx hout,
      fun _c _stop hc hlt hout => nextWith_of_capped hb hc hlt hout⟩

/-- Settles O34: either query tests its operand before it walks. -/
theorem queriesOutOfRangeChangeNothing : Obligations.QueriesOutOfRangeChangeNothing :=
  fun _s _x hx => ⟨exec_get_of_le hx, (exec_invert_of_le hx).trans (exec_get_of_le hx).symm⟩

/-- Settles O41: RANGE tests its interval before it opens the slot. -/
theorem rangeRejectsBadIntervals : Obligations.RangeRejectsBadIntervals :=
  fun _c _lo _hi _s => exec_range_of_bad_interval

/-- Settles O43: NEXT tests its cursor before it walks. -/
theorem nextAtTheEndChangesNothing : Obligations.NextAtTheEndChangesNothing :=
  fun _s _c _pos _stop hc hend => exec_next_of_exhausted hc hend

end Sys2Proof.Machine

/-! SUPPORT. Reset and the handshakes (30_encoding.md R52; 60_exceptions.md R130; 70_reset_and_hazards.md R131-R137): the step of each phase
outside EXEC and the step of a reset edge, the surroundings no step writes, the hash transactions of a command (R142) and the cursors
CONSTRUCT clears (R140): the obligations O6, O8, O11, O21, O51 and O59. -/

namespace Sys2Proof.Machine

/-- A walk's messages as its command records them: ROUNDS for each of the WALK_COUNT steps, and those are at most WALK_CAP
(43_cycle_walker.md R96, R97). -/
theorem walk_transactions (u : HashPort) (p : Perm) (cap : Word) (d : Direction) (x : Word) :
    (walk u p cap d x).sent.length = p.rounds.toNat * (BitVec.ofNat 64 (walk u p cap d x).steps).toNat ∧
      BitVec.ofNat 64 (walk u p cap d x).steps ≤ cap := by
  rw [BitVec.le_def, toNat_walk_steps]
  exact ⟨length_walk_sent u p cap d x, walk_steps_le u p cap d x⟩

/-- Settles O51: a command that reaches the walker ends with the walk's code and traffic; every other end writes neither field. -/
theorem hashTransactionsPerCommand : Obligations.HashTransactionsPerCommand := by
  intro i s t hexec
  cases exec_effect hexec with
  | raise hok hiiv =>
    refine ⟨[], (List.append_nil _).symm, ?_⟩
    cases i with
    | get | invert | next => exact (if_neg (not_or.mpr ⟨hok, hiiv⟩)).mpr ⟨rfl, rfl⟩
    | construct | iter | range | readState => exact ⟨rfl, rfl⟩
  | construct | iter | range | readState => exact ⟨[], (List.append_nil _).symm, rfl, rfl⟩
  | get | invert | next =>
    exact ⟨_, rfl, (if_pos ((walk_code _ _ _ _ _).imp_right And.left)).mpr (walk_transactions _ _ _ _ _)⟩

section Surroundings

variable {s t : State} {i : Instr}

/-- What lies outside PRS-CORE is as it was, but for messages added to the traffic (10_state.md R18; 70_reset_and_hazards.md R134). -/
structure SurroundingsKept (s t : State) : Prop where
  hashUnit : t.hashUnit = s.hashUnit
  io : t.io = s.io
  sent : s.hashSent <+: t.hashSent

theorem Effect.surroundingsKept (h : Effect s i t) : SurroundingsKept s t := by
  obtain ⟨-, -, -, hunit, hio⟩ := h.keeps_hidden
  refine ⟨hunit, hio, ?_⟩
  cases h with
  | raise | construct | iter | range | readState => exact List.prefix_rfl
  | get | invert | next => exact List.prefix_append _ _

theorem surroundingsKept_closeWalk (i : Instr) (w : WalkResult) (s : State) : SurroundingsKept s (s.closeWalk i w) := by
  rcases State.closeWalk_cases i w s with h | ⟨_, _, -, -, h⟩ <;> rw [h] <;>
    exact ⟨rfl, rfl, List.prefix_append _ _⟩

theorem surroundingsKept_walkTurn (i : Instr) (d : Direction) (k x : Word) (s : State) :
    SurroundingsKept s (s.walkTurn i d k x) := by
  rcases State.walkTurn_cases i d k x s with ⟨-, h⟩ | ⟨-, h⟩ <;> rw [h]
  · exact surroundingsKept_closeWalk _ _ _
  · exact ⟨rfl, rfl, List.prefix_rfl⟩

theorem surroundingsKept_takeDigest (i : Instr) (d : Direction) (g : Word) (s : State) :
    SurroundingsKept s (s.takeDigest i d g) := by
  rcases State.takeDigest_cases i d g s with ⟨-, h⟩ | ⟨-, -, h⟩ | ⟨-, -, h⟩ <;> rw [h]
  · exact ⟨rfl, rfl, List.prefix_rfl⟩
  · exact surroundingsKept_closeWalk _ _ _
  · exact surroundingsKept_walkTurn _ _ _ _ _

/-- Of the edges of a walk, the one that has its request accepted records the message. -/
theorem surroundingsKept_walkEdge (en : Enc) (i : Instr) (d : Direction) (e : PortIn) (s : State) :
    SurroundingsKept s (s.walkEdge en i d e) := by
  cases hph : s.hashPhase with
  | hidle =>
    rw [State.walkEdge_of_hidle hph]
    exact ⟨rfl, rfl, List.prefix_rfl⟩
  | hreq =>
    rw [State.walkEdge_of_hreq hph]
    split
    · exact ⟨rfl, rfl, List.prefix_append _ _⟩
    · exact ⟨rfl, rfl, List.prefix_rfl⟩
  | hwait =>
    rw [State.walkEdge_of_hwait hph]
    split
    · exact surroundingsKept_takeDigest _ _ _ _
    · exact ⟨rfl, rfl, List.prefix_rfl⟩

/-- The edge itself writes nothing outside PRS-CORE: what a step uses up is its input sample. -/
theorem StepEffect.surroundingsKept (h : StepEffect s t) : SurroundingsKept s.tick t := by
  cases h with
  | reset | accept | release | wait | illegal => exact ⟨rfl, rfl, List.prefix_rfl⟩
  | command _ _ _ _ _ he => exact he.surroundingsKept
  | start => exact surroundingsKept_walkTurn _ _ _ _ _
  | walk => exact surroundingsKept_walkEdge _ _ _ _ _

end Surroundings

/-- Settles O59: after its sample is used up, a step keeps the surroundings but for the messages it sends. -/
theorem surroundingsAreNotWritten : Obligations.SurroundingsAreNotWritten := by
  intro s t hstep
  obtain ⟨hunit, hio, sent, hsent⟩ := (step_effect hstep).surroundingsKept
  exact ⟨hunit, hio, sent, hsent.symm⟩

section Handshakes

variable {s s' : State}

/-- IDLE, without a reset: the command handshake, or a wait (70_reset_and_hazards.md R136). -/
theorem step_of_idle (hr : s.pinsNow.rst = false) (hp : s.cmdPhase = .idle) :
    step s = .next (if s.pinsNow.cmdValid then s.tick.accept s.pinsNow.cmdData else s.tick) := by
  simp only [step, State.edge, hr, State.tick_cmdPhase, hp, Bool.false_eq_true, if_false]

/-- RESP, without a reset: the response handshake, or a wait (70_reset_and_hazards.md R136). -/
theorem step_of_resp (hr : s.pinsNow.rst = false) (hp : s.cmdPhase = .resp) :
    step s = .next (if s.pinsNow.rspReady then s.tick.release else s.tick) := by
  simp only [step, State.edge, hr, State.tick_cmdPhase, hp, Bool.false_eq_true, if_false]

/-- A reset comes before all else (70_reset_and_hazards.md R131). -/
theorem step_of_rst (hr : s.pinsNow.rst = true) : step s = .next s.tick.resetEdge := if_pos hr

/-- A reset edge reads the parameters and what lies outside PRS-CORE, and nothing else (70_reset_and_hazards.md R132). -/
theorem State.resetEdge_congr (hcap : s'.walkCap = s.walkCap) (hncur : s'.ncur = s.ncur) (hen : s'.encoding = s.encoding)
    (hunit : s'.hashUnit = s.hashUnit) (hsent : s'.hashSent = s.hashSent) (hio : s'.io = s.io) :
    s'.resetEdge = s.resetEdge := by
  rw [State.resetEdge, State.resetEdge, hcap, hncur, hen, hunit, hsent, hio]

/-- Placing a command sets rst to 0 in the coming sample, or leaves the quiet pins (log 8). -/
@[simp] theorem State.rst_pinsNow_placeCommand (w : Record) (s : State) : (s.placeCommand w).pinsNow.rst = false := by
  rw [State.pinsNow, State.placeCommand]
  cases s.io <;> rfl

end Handshakes

/-- Settles O6: a placed record is a latched one, under contract and without a reset. -/
theorem placedCommandRunsNext : Obligations.PlacedCommandRunsNext := fun s nbits w i hd =>
  stepRunsLatchedCommand (s.withFetchWord nbits w) i rfl rfl (State.rst_pinsNow_placeCommand _ _) hd

/-- Settles O8: in IDLE and in RESP the handshake's pin decides between the transfer and a wait. -/
theorem handshakesMoveThePhase : Obligations.HandshakesMoveThePhase := by
  intro s hr
  refine ⟨fun hp hv => ?_, fun hp hv => ?_, fun hp hv => ?_, fun hp hv => ?_⟩
  · rw [step_of_idle hr hp, if_pos hv]
    rfl
  · rw [step_of_idle hr hp, if_neg (Bool.eq_false_iff.mp hv)]
    rfl
  · rw [step_of_resp hr hp, if_pos hv]
    rfl
  · rw [step_of_resp hr hp, if_neg (Bool.eq_false_iff.mp hv)]
    rfl

/-- Settles O11: the step is a reset edge, which reads no register but the parameters; with rst at 1 no output offers anything. -/
theorem resetEdgeRestoresResetValues : Obligations.ResetEdgeRestoresResetValues := by
  intro s hr
  refine ⟨⟨_, step_of_rst hr, rfl, rfl, rfl, rfl, rfl, rfl, rfl, State.ncur_resetEdge _⟩, ?_, rfl⟩
  intro s' hcap hncur hen hunit hsent hio
  have hr' : s'.pinsNow.rst = true := by rw [State.pinsNow, hio]; exact hr
  have htail : s'.tick.io = s.tick.io := congrArg List.tail hio
  rw [step_of_rst hr, step_of_rst hr', State.resetEdge_congr (s := s.tick) (s' := s'.tick) hcap hncur hen hunit hsent htail]

/-- A cursor of the file after `clearCursors` (40_parameter_deriver.md R74). -/
theorem State.cursor?_clearCursors {s : State} {c : Byte} (hc : c.toNat < s.ncur) :
    s.clearCursors.cursor? c = some { pos := 0, stop := 0 } := by
  rw [State.clearCursors_eq_replicate]
  exact List.getElem?_replicate_of_lt hc

/-- Settles O21: a CONSTRUCT that answers OK cleared the cursors, and NEXT finds (0, 0) exhausted. -/
theorem staleCursorsAreExhausted : Obligations.StaleCursorsAreExhausted := by
  intro n seed rounds s t hexec hok c hc
  cases exec_effect hexec with
  | raise hne => exact absurd hok hne
  | construct =>
    have hcur := State.cursor?_clearCursors (s := { s with perm := permOf n seed rounds }) hc
    exact ⟨hcur, responseTo_of_exec (exec_next_of_exhausted hcur (word_zero_le 0))⟩

end Sys2Proof.Machine
